-- ==== Sys2Proof/Word.lean ====
section
/-! DEFINITION. The word types of the SBE: the widths that 00_scope.md R7 and 20_memory.md R50 give. -/

namespace Sys2Proof

/-- One byte of bitmap memory (R51), also a command byte (R81) and a frame index (R28). -/
abbrev Byte := BitVec 8

/-- One 16-bit coordinate or rectangle size register (R26, R31, R32). -/
abbrev Half := BitVec 16

/-- The 32-bit data of a host register transaction (R7, R80). -/
abbrev Data := BitVec 32

/-- A 6-bit host register address (R7, R50). -/
abbrev RegAddr := BitVec 6

/-- A 13-bit scan-out pixel index (R80, R129). -/
abbrev PixelIndex := BitVec 13

end Sys2Proof
end

