-- ==== Sys2Proof/Config.lean ====
section
/-! DEFINITION. What is fixed for the device (R7, R8), the open parameters of a platform (R7, R22), and the free value
the spec leaves open: the frame buffer after reset (R45). -/

namespace Sys2Proof

/-- Frame buffer width in pixels (R7, R8). -/
abbrev WIDTH : Nat := 128

/-- Frame buffer height in pixels (R7, R8). -/
abbrev HEIGHT : Nat := 64

/-- The frame buffer's 8192 one-bit pixels, bit `y * WIDTH + x` being pixel `(x, y)` (R23; R24 names this vector as one
way a model may hold `FB`; log entry 15). -/
abbrev FrameBuffer := BitVec (WIDTH * HEIGHT)

/-- Bitmap memory contents: the bytes that differ from `Config.unlistedByte`, addresses strictly rising (R51; log entry 3). -/
abbrev Memory := List Host.Cell

/-- The parameters of the step relation, fixed for a whole run (R7 rows OPEN, R22): `AW`, `ROM_SIZE`, `ROM`. -/
structure Platform where
  /-- `AW`, the width of a bitmap-memory address in bits. -/
  aw : Nat
  /-- `ROM_SIZE`, how many bytes bitmap memory holds. -/
  romSize : Nat
  /-- `ROM`, the bytes of bitmap memory. -/
  rom : Memory
  deriving DecidableEq, Repr

/-- What an address of bitmap memory that the list does not name reads as. DESIGN CHOICE (log entry 3): every function
from addresses to bytes is some list, so this fixes how contents are written down, not what they are. -/
def Config.unlistedByte : Byte := 0x00#8

/-- The parameters in `State.reset`: those of 95_test_vectors.md section 0, with no byte listed.
DESIGN CHOICE (log entry 2): the spec leaves all three open. -/
def Config.resetPlatform : Platform := ⟨16, 256, []⟩

/-- FREE VALUE: the 8192 pixels after reset, "each pixel independently 0 or 1" (R23, R45, U6; log entry 4).
It has no body, so nothing can be proved about any of them. -/
opaque Config.resetFb : FrameBuffer

end Sys2Proof
end

