-- ==== Sys2Proof/Syntax.lean ====
section
/-! DEFINITION. The nine commands (R83), the operand registers' names (R25), the host's transactions (R80), and the listing
syntax with its pseudo-instructions (R90, R91). -/

namespace Sys2Proof

/-- The commands, one constructor per row of spec/opcode_table.json (R83). Their operands stand in registers (R86), so no
constructor has an argument. -/
inductive Instr where
  /-- DRAW.EXTMASK (R141). -/
  | drawExtmask
  /-- DRAW.PLUSMASK (R142). -/
  | drawPlusmask
  /-- DRAW.OVERWRITE (R143). -/
  | drawOverwrite
  /-- DRAW.ERASE (R144). -/
  | drawErase
  /-- DRAW.SELFMASK (R145). -/
  | drawSelfmask
  /-- PIXEL.CLR (R122). -/
  | pixelClr
  /-- PIXEL.SET (R123). -/
  | pixelSet
  /-- FB.CLEAR (R125). -/
  | fbClear
  /-- COLLIDE (R161). -/
  | collide
  deriving DecidableEq, Repr

/-- The five draw modes (R84, R136). -/
inductive DrawMode where
  | extMask
  | plusMask
  | overwrite
  | erase
  | selfMask
  deriving DecidableEq, Repr

/-- The fourteen operand registers (R25). -/
inductive OperandReg where
  | posx
  | posy
  | bmp
  | frm
  | msk
  | mfrm
  | r1x
  | r1y
  | r1w
  | r1h
  | r2x
  | r2y
  | r2w
  | r2h
  deriving DecidableEq, Repr

/-- What a defined register address names: CMD (R39), STATUS (R38) or an operand register (R25). -/
inductive RegName where
  | cmd
  | status
  | operand (r : OperandReg)
  deriving DecidableEq, Repr

/-- A host transaction (R80). -/
inductive Transaction where
  /-- `RegWrite(a, d)` (R40). -/
  | regWrite (a : RegAddr) (d : Data)
  /-- `RegRead(a)` (R41). -/
  | regRead (a : RegAddr)
  /-- `FbRead(n)` (R129). -/
  | fbRead (n : PixelIndex)
  deriving DecidableEq, Repr

/-- One line of a listing (R90). Numbers are as they are written, before they are encoded. -/
inductive Line where
  /-- `wr REG, value`. -/
  | wr (reg : RegName) (value : Int)
  /-- `rd REG`. -/
  | rd (reg : RegName)
  /-- `fb n`. -/
  | fb (n : Nat)
  /-- `cmd MNEMONIC`. -/
  | cmd (i : Instr)
  deriving DecidableEq, Repr

/-- The pseudo-instructions (R91), each the source's function call of the same shape. -/
inductive Pseudo where
  | drawExtmask (x y : Int) (bitmap frame mask maskFrame : Nat)
  | drawPlusmask (x y : Int) (bitmap frame : Nat)
  | drawOverwrite (x y : Int) (bitmap frame : Nat)
  | drawErase (x y : Int) (bitmap frame : Nat)
  | drawSelfmask (x y : Int) (bitmap frame : Nat)
  | pixel (x y : Int) (v : Bool)
  | clear
  | collide (x1 y1 : Int) (w1 h1 : Nat) (x2 y2 : Int) (w2 h2 : Nat)
  deriving DecidableEq, Repr

end Sys2Proof
end

