-- ==== Sys2Proof/WellFormed.lean ====
section
/-! DEFINITION. Which terms are well formed: bitmap memory in canonical form, a platform's parameters in the ranges of R7, a
listing line with encodable numbers (R90), a pseudo-instruction with operands in the ranges of R86. -/

namespace Sys2Proof

/-- A command has no field, so each of the nine constructors is a well-formed command; the 247 reserved codes (R88) are
no `Instr` at all and are refused by the decoder. -/
def Instr.wf : Instr → Bool
  | .drawExtmask => true
  | .drawPlusmask => true
  | .drawOverwrite => true
  | .drawErase => true
  | .drawSelfmask => true
  | .pixelClr => true
  | .pixelSet => true
  | .fbClear => true
  | .collide => true

/-- The canonical form: addresses strictly rising, no cell equal to what an unlisted address reads as. -/
abbrev Memory.wf (m : Memory) : Prop :=
  m.Pairwise (fun a b => a.1 < b.1) ∧ ∀ c ∈ m, c.2 ≠ Config.unlistedByte

/-- The ranges of R7: `1 <= AW <= 32`, `1 <= ROM_SIZE <= 2^AW`, and `ROM` a function on `[0, ROM_SIZE)`. -/
abbrev Platform.wf (p : Platform) : Prop :=
  1 ≤ p.aw ∧ p.aw ≤ 32 ∧ 1 ≤ p.romSize ∧ p.romSize ≤ 2 ^ p.aw ∧ Memory.wf p.rom ∧ ∀ c ∈ p.rom, c.1 < p.romSize

/-- A value that R90 can write: "a decimal, `0x` hexadecimal or negative decimal number, encoded in 32 bits two's
complement" (log entry 19). -/
abbrev encodable (v : Int) : Prop := -2 ^ 31 ≤ v ∧ v < 2 ^ 32

/-- A well-formed listing line (R90): `wr` names an operand register or CMD, its value fits 32 bits, a pixel index
is one of 0..8191 (log entry 19). -/
def Line.wf : Line → Bool
  | .wr reg value => reg != .status && decide (encodable value)
  | .rd _ => true
  | .fb n => n < 8192
  | .cmd i => i.wf

/-- A signed 16-bit operand (R86, rows `x`, `y` and the positions of `r1`, `r2`). -/
abbrev signedOperand (v : Int) : Prop := -32768 ≤ v ∧ v ≤ 32767

/-- The operand ranges of R86 on a platform of address width `aw`. -/
def Pseudo.wf (aw : Nat) : Pseudo → Bool
  | .drawExtmask x y bitmap frame mask maskFrame =>
    decide (signedOperand x ∧ signedOperand y ∧ bitmap < 2 ^ aw ∧ frame < 256 ∧ mask < 2 ^ aw ∧ maskFrame < 256)
  | .drawPlusmask x y bitmap frame => decide (signedOperand x ∧ signedOperand y ∧ bitmap < 2 ^ aw ∧ frame < 256)
  | .drawOverwrite x y bitmap frame => decide (signedOperand x ∧ signedOperand y ∧ bitmap < 2 ^ aw ∧ frame < 256)
  | .drawErase x y bitmap frame => decide (signedOperand x ∧ signedOperand y ∧ bitmap < 2 ^ aw ∧ frame < 256)
  | .drawSelfmask x y bitmap frame => decide (signedOperand x ∧ signedOperand y ∧ bitmap < 2 ^ aw ∧ frame < 256)
  | .pixel x y _ => decide (signedOperand x ∧ signedOperand y)
  | .clear => true
  | .collide x1 y1 w1 h1 x2 y2 w2 h2 =>
    decide (signedOperand x1 ∧ signedOperand y1 ∧ w1 < 65536 ∧ h1 < 65536
      ∧ signedOperand x2 ∧ signedOperand y2 ∧ w2 < 65536 ∧ h2 < 65536)

end Sys2Proof
end

