-- ==== Sys2Proof/Decode.lean ====
section
/-! DEFINITION. The decoder of the command byte (R81, R83, R88) and of register addresses (R25, R59), total on all bits and
rejecting by name; after it the encoder, the listing notation's assembler (R90) and the pseudo-instructions' expansion
(R91). -/

namespace Sys2Proof

/-! ### The decoder -/

/-- Why a CMD write names no command. -/
inductive DecodeError where
  /-- `d[7:0]` is none of the nine codes (R88, U4). -/
  | reservedCommand (code : Byte)
  deriving DecidableEq, Repr

/-- `d[7:0]`, the command byte; bits 31:8 are ignored (R81). -/
def commandByte (d : Data) : Byte := d.setWidth 8

/-- GRP, bits 7:4 of the command byte (R81). -/
def commandGroup (d : Data) : BitVec 4 := d.extractLsb' 4 4

/-- FN, bits 3:0 of the command byte (R81). -/
def commandFunction (d : Data) : BitVec 4 := d.extractLsb' 0 4

/-- The command that the data of a CMD write selects: the complete command map R83; every other value is reserved. -/
def decode (d : Data) : Except DecodeError Instr :=
  match commandByte d with
  | 0x10#8 => .ok .drawExtmask
  | 0x11#8 => .ok .drawPlusmask
  | 0x12#8 => .ok .drawOverwrite
  | 0x13#8 => .ok .drawErase
  | 0x14#8 => .ok .drawSelfmask
  | 0x20#8 => .ok .pixelClr
  | 0x21#8 => .ok .pixelSet
  | 0x30#8 => .ok .fbClear
  | 0x40#8 => .ok .collide
  | code => .error (.reservedCommand code)

/-- The register at a host address; `none` for the reserved addresses 0x10 to 0x3F (R25, R38, R39, R42, R59). -/
def decodeRegister (a : RegAddr) : Option RegName :=
  match a with
  | 0x00#6 => some .cmd
  | 0x01#6 => some .status
  | 0x02#6 => some (.operand .posx)
  | 0x03#6 => some (.operand .posy)
  | 0x04#6 => some (.operand .bmp)
  | 0x05#6 => some (.operand .frm)
  | 0x06#6 => some (.operand .msk)
  | 0x07#6 => some (.operand .mfrm)
  | 0x08#6 => some (.operand .r1x)
  | 0x09#6 => some (.operand .r1y)
  | 0x0A#6 => some (.operand .r1w)
  | 0x0B#6 => some (.operand .r1h)
  | 0x0C#6 => some (.operand .r2x)
  | 0x0D#6 => some (.operand .r2y)
  | 0x0E#6 => some (.operand .r2w)
  | 0x0F#6 => some (.operand .r2h)
  | _ => none

/-- The instruction the decoder reads from a row of the opcode table: its `nbits` low bits are the data written to CMD, every
bit above them 0. -/
def decodeTableWord (nbits w : Nat) : Option Instr :=
  match decode (BitVec.ofNat 32 (w % 2 ^ nbits)) with
  | .ok i => some i
  | .error _ => none

/-! ### The encoder -/

/-- The code column of R83. -/
def encodeByte : Instr → Byte
  | .drawExtmask => 0x10#8
  | .drawPlusmask => 0x11#8
  | .drawOverwrite => 0x12#8
  | .drawErase => 0x13#8
  | .drawSelfmask => 0x14#8
  | .pixelClr => 0x20#8
  | .pixelSet => 0x21#8
  | .fbClear => 0x30#8
  | .collide => 0x40#8

/-- The data of the CMD write that issues a command, bits 31:8 zero (R81, R90). -/
def encode (i : Instr) : Data := (encodeByte i).setWidth 32

/-- The addr column of R25, with CMD at 0x00 (R39) and STATUS at 0x01 (R38). -/
def registerAddress : RegName → RegAddr
  | .cmd => 0x00#6
  | .status => 0x01#6
  | .operand .posx => 0x02#6
  | .operand .posy => 0x03#6
  | .operand .bmp => 0x04#6
  | .operand .frm => 0x05#6
  | .operand .msk => 0x06#6
  | .operand .mfrm => 0x07#6
  | .operand .r1x => 0x08#6
  | .operand .r1y => 0x09#6
  | .operand .r1w => 0x0A#6
  | .operand .r1h => 0x0B#6
  | .operand .r2x => 0x0C#6
  | .operand .r2y => 0x0D#6
  | .operand .r2w => 0x0E#6
  | .operand .r2h => 0x0F#6

/-- The draw mode that a GRP 1 command carries in its code (R84); the other four commands draw nothing. -/
def Instr.drawMode : Instr → Option DrawMode
  | .drawExtmask => some .extMask
  | .drawPlusmask => some .plusMask
  | .drawOverwrite => some .overwrite
  | .drawErase => some .erase
  | .drawSelfmask => some .selfMask
  | .pixelClr => none
  | .pixelSet => none
  | .fbClear => none
  | .collide => none

/-- The FN column of R84. -/
def DrawMode.number : DrawMode → Nat
  | .extMask => 0
  | .plusMask => 1
  | .overwrite => 2
  | .erase => 3
  | .selfMask => 4

/-! ### Listings -/

/-- The transaction a line stands for (R90). -/
def Line.assemble : Line → Transaction
  | .wr reg value => .regWrite (registerAddress reg) (BitVec.ofInt 32 value)
  | .rd reg => .regRead (registerAddress reg)
  | .fb n => .fbRead (BitVec.ofNat 13 n)
  | .cmd i => .regWrite 0x00#6 (encode i)

/-- A hexadecimal digit as R80's examples write it. -/
def hexDigit (n : Nat) : Char := if n < 10 then Char.ofNat (48 + n) else Char.ofNat (55 + n)

/-- The `k` low hexadecimal digits of a number, the highest first. -/
def hexDigits : Nat → Nat → List Char
  | 0, _ => []
  | k + 1, n => hexDigits k (n / 16) ++ [hexDigit (n % 16)]

/-- A transaction as a listing writes it: `W aa dddddddd`, `R aa`, `F nnnn`, with two, eight and four hexadecimal
digits (R80). -/
def Transaction.listing : Transaction → List Char
  | .regWrite a d => ['W', ' '] ++ hexDigits 2 a.toNat ++ [' '] ++ hexDigits 8 d.toNat
  | .regRead a => ['R', ' '] ++ hexDigits 2 a.toNat
  | .fbRead n => ['F', ' '] ++ hexDigits 4 n.toNat

/-- The register writes that load `x, y, bitmap, frame` (R91). -/
def drawOperandLines (x y : Int) (bitmap frame : Nat) : List Line :=
  [.wr (.operand .posx) x, .wr (.operand .posy) y, .wr (.operand .bmp) bitmap, .wr (.operand .frm) frame]

/-- The expansion of a pseudo-instruction (R91), in the order of R91's table. -/
def Pseudo.expand : Pseudo → List Line
  | .drawExtmask x y bitmap frame mask maskFrame =>
    drawOperandLines x y bitmap frame
      ++ [.wr (.operand .msk) mask, .wr (.operand .mfrm) maskFrame, .cmd .drawExtmask]
  | .drawPlusmask x y bitmap frame => drawOperandLines x y bitmap frame ++ [.cmd .drawPlusmask]
  | .drawOverwrite x y bitmap frame => drawOperandLines x y bitmap frame ++ [.cmd .drawOverwrite]
  | .drawErase x y bitmap frame => drawOperandLines x y bitmap frame ++ [.cmd .drawErase]
  | .drawSelfmask x y bitmap frame => drawOperandLines x y bitmap frame ++ [.cmd .drawSelfmask]
  | .pixel x y v =>
    [.wr (.operand .posx) x, .wr (.operand .posy) y, .cmd (if v then .pixelSet else .pixelClr)]
  | .clear => [.cmd .fbClear]
  | .collide x1 y1 w1 h1 x2 y2 w2 h2 =>
    [.wr (.operand .r1x) x1, .wr (.operand .r1y) y1, .wr (.operand .r1w) w1, .wr (.operand .r1h) h1,
      .wr (.operand .r2x) x2, .wr (.operand .r2y) y2, .wr (.operand .r2w) w2, .wr (.operand .r2h) h2,
      .cmd .collide, .rd .status]

end Sys2Proof
end

