-- ==== Sys2Proof/Machine/State.lean ====
section
/-! DEFINITION. The machine's state (R20), plain data; the reasons a step can stop; the state after reset (R45, R190). -/

namespace Sys2Proof.Machine

/-- The fourteen operand registers (R25). BMP and MSK are `AW` bits wide: their fields hold those bits in the low end
and zeros above (log entry 14). -/
@[ext]
structure OperandRegs where
  /-- Destination x of DRAW, x of PIXEL (R26). -/
  posx : Half
  /-- Destination y of DRAW, y of PIXEL (R26). -/
  posy : Half
  /-- Address of the bitmap's first header byte (R27). -/
  bmp : BitVec 32
  /-- Frame index (R28). -/
  frm : Byte
  /-- Address of the external mask's first data byte (R29). -/
  msk : BitVec 32
  /-- Mask frame index (R30). -/
  mfrm : Byte
  /-- `rect1.x` (R31). -/
  r1x : Half
  /-- `rect1.y` (R31). -/
  r1y : Half
  /-- `rect1.width` (R32). -/
  r1w : Half
  /-- `rect1.height` (R32). -/
  r1h : Half
  /-- `rect2.x` (R31). -/
  r2x : Half
  /-- `rect2.y` (R31). -/
  r2y : Half
  /-- `rect2.width` (R32). -/
  r2w : Half
  /-- `rect2.height` (R32). -/
  r2h : Half
  deriving DecidableEq, Repr

/-- What a read transaction returned to the host (R80). -/
inductive Reply where
  /-- The 32 bits of a `RegRead` (R41). -/
  | data (d : Data)
  /-- The bit of an `FbRead` (R129). -/
  | pixel (b : Bool)
  deriving DecidableEq, Repr

/-- The architectural state of R20 (`fb`, `regs`, `hit`), the parameters of R22 beside it (`platform`, log entry 1), and the
host's side of the transactions (`pending`, `replies`, log entries 5 and 6). CMD holds no value (R39) and the
cursor of a DRAW does not survive it (R43), so neither is a field. -/
@[ext]
structure State where
  /-- The frame buffer (R23). -/
  fb : FrameBuffer
  /-- The operand registers (R25). -/
  regs : OperandRegs
  /-- STATUS.HIT (R38). -/
  hit : Bool
  /-- `AW`, `ROM_SIZE`, `ROM`; no step writes it (R22, R52). -/
  platform : Platform
  /-- The transactions the host has still to issue, oldest first (R14, R61). -/
  pending : List Transaction
  /-- What reads have returned so far, newest first (R80). -/
  replies : List Reply
  deriving DecidableEq, Repr

/-- Faults of the machine. There are none: "The table of exception causes is empty" (R170), so this type has no
constructor and no step can answer a fault (log entry 13). -/
inductive Fault where
  deriving DecidableEq, Repr

/-- Where the spec defines no result and a model refuses (R171, "Refuse is the model's act, not the hardware's"). -/
inductive Refusal where
  /-- A command whose meaning is not written yet; raised by no arm of this model. Safe. -/
  | notModelled (mnemonic : String)
  /-- U1, R109: a DRAW whose decoded height is not a multiple of 8; raised by the five DRAW commands. Safe (log entry 8). -/
  | heightNotMultipleOf8
  /-- U2 (b), R53, R60: a DRAW one of whose bitmap-memory addresses is `>= ROM_SIZE`; raised by the five DRAW
  commands. Safe (log entry 9). -/
  | beyondBitmapMemory
  /-- U4, R88: a CMD write whose low byte is no command; raised by a register write. Safe (log entry 10). -/
  | reservedCommand (code : Byte)
  /-- U5, R42: a register read or write at 0x10 to 0x3F; raised by both register transactions. Safe (log entry 10). -/
  | reservedRegister (a : RegAddr)
  deriving DecidableEq, Repr

/-- Every operand register 0 (R45, R191). -/
def OperandRegs.zero : OperandRegs := ⟨0, 0, 0, 0, 0, 0, 0, 0, 0, 0, 0, 0, 0, 0⟩

/-- The state after reset on a platform whose frame buffer happens to hold `fb`: operand registers 0, HIT 0,
nothing issued yet (R45, R190). -/
def State.powerOn (p : Platform) (fb : FrameBuffer) : State :=
  { fb := fb, regs := OperandRegs.zero, hit := false, platform := p, pending := [], replies := [] }

/-- The machine right after reset: R45, with the frame buffer's contents the free value `Config.resetFb` (log entry 4)
and the platform of log entry 2. -/
def State.reset : State := State.powerOn Config.resetPlatform Config.resetFb

end Sys2Proof.Machine
end

