-- ==== Sys2Proof/Machine/Ops.lean ====
section
/-! DEFINITION. The named operations over memory, frame buffer and registers: the only ways a rule touches state (R12).
The SBE takes no exception and returns from none (R170, R175), so there is no operation for either. -/

namespace Sys2Proof

/-! ### Bitmap memory -/

/-- The byte at an address: the listed one, else `Config.unlistedByte`. -/
def Memory.read : Memory → Nat → Byte
  | [], _ => Config.unlistedByte
  | (a, b) :: m, addr => if a = addr then b else Memory.read m addr

/-- A memory with one byte replaced, in canonical form. No step calls it: bitmap memory is "constructed at compile/link
time" (R52), and this is how a platform's memory is built. -/
def Memory.store : Memory → Nat → Byte → Memory
  | [], addr, v => if v = Config.unlistedByte then [] else [(addr, v)]
  | (a, b) :: m, addr, v =>
    if addr < a then
      if v = Config.unlistedByte then (a, b) :: m else (addr, v) :: (a, b) :: m
    else if addr = a then
      if v = Config.unlistedByte then m else (addr, v) :: m
    else (a, b) :: Memory.store m addr v

/-- A memory with consecutive bytes laid down from an address (R51, "a run of consecutive byte addresses"). -/
def Memory.load (m : Memory) (addr : Nat) : List Byte → Memory
  | [] => m
  | v :: vs => Memory.load (Memory.store m addr v) (addr + 1) vs

/-- `ROM(addr)` (R7, R53); meaningful for `addr < ROM_SIZE`. -/
def Platform.byteAt (p : Platform) (addr : Nat) : Byte := Memory.read p.rom addr

/-- `MemRead(addr, 1)` (R53): the byte below `ROM_SIZE`, no result at or above it. -/
def Platform.memRead (p : Platform) (addr : Nat) : Option Byte :=
  if addr < p.romSize then some (p.byteAt addr) else none

/-! ### Frame buffer -/

/-- The linear index of pixel `(x, y)`: row pitch exactly `WIDTH`, no padding (R8, R129). -/
def pixelNumber (x y : Nat) : Nat := y * WIDTH + x

/-- `FB[x, y]` for in-bounds `x`, `y` (R23). -/
def FrameBuffer.get (fb : FrameBuffer) (x y : Nat) : Bool := fb.getLsbD (pixelNumber x y)

/-- `FB[x, y] <- b` for in-bounds `x`, `y` (R23). -/
def FrameBuffer.put (fb : FrameBuffer) (x y : Nat) (b : Bool) : FrameBuffer :=
  if b then fb ||| BitVec.twoPow _ (pixelNumber x y) else fb &&& ~~~(BitVec.twoPow _ (pixelNumber x y))

/-- In bounds: `[0, WIDTH) × [0, HEIGHT)` (R15, R121). -/
abbrev inBounds (x y : Int) : Prop := 0 ≤ x ∧ x < WIDTH ∧ 0 ≤ y ∧ y < HEIGHT

/-- `FbWrite(x, y, b)` (R121): the pixel is written if it is in bounds, nothing happens otherwise. -/
def fbWrite (fb : FrameBuffer) (x y : Int) (b : Bool) : FrameBuffer :=
  if inBounds x y then FrameBuffer.put fb x.toNat y.toNat b else fb

/-- Every pixel 0 (R125). -/
def fbCleared : FrameBuffer := 0

/-- `FbRead(n)` (R129): the pixel `(n % WIDTH, n / WIDTH)`. -/
def fbRead (fb : FrameBuffer) (n : PixelIndex) : Bool :=
  FrameBuffer.get fb (n.toNat % WIDTH) (n.toNat / WIDTH)

namespace Machine

/-! ### Operand registers -/

/-- The low `n` bits of the written data, zeros above (R40). -/
def lowBits (n : Nat) (d : Data) : Data := BitVec.ofNat 32 (d.toNat % 2 ^ n)

/-- The width column of R25. -/
def operandWidth (aw : Nat) : OperandReg → Nat
  | .posx => 16
  | .posy => 16
  | .bmp => aw
  | .frm => 8
  | .msk => aw
  | .mfrm => 8
  | .r1x => 16
  | .r1y => 16
  | .r1w => 16
  | .r1h => 16
  | .r2x => 16
  | .r2y => 16
  | .r2w => 16
  | .r2h => 16

/-- The stored bits of a register in the low end of the bus data, zero above: "a signed register is not sign-extended on
the bus" (R41). -/
def OperandRegs.read (g : OperandRegs) : OperandReg → Data
  | .posx => g.posx.setWidth 32
  | .posy => g.posy.setWidth 32
  | .bmp => g.bmp
  | .frm => g.frm.setWidth 32
  | .msk => g.msk
  | .mfrm => g.mfrm.setWidth 32
  | .r1x => g.r1x.setWidth 32
  | .r1y => g.r1y.setWidth 32
  | .r1w => g.r1w.setWidth 32
  | .r1h => g.r1h.setWidth 32
  | .r2x => g.r2x.setWidth 32
  | .r2y => g.r2y.setWidth 32
  | .r2w => g.r2w.setWidth 32
  | .r2h => g.r2h.setWidth 32

/-- The register takes the low bits of the data, as many as its width; "the other bits of `d` are discarded" (R40). -/
def OperandRegs.write (aw : Nat) (g : OperandRegs) (r : OperandReg) (d : Data) : OperandRegs :=
  match r with
  | .posx => { g with posx := d.setWidth 16 }
  | .posy => { g with posy := d.setWidth 16 }
  | .bmp => { g with bmp := lowBits aw d }
  | .frm => { g with frm := d.setWidth 8 }
  | .msk => { g with msk := lowBits aw d }
  | .mfrm => { g with mfrm := d.setWidth 8 }
  | .r1x => { g with r1x := d.setWidth 16 }
  | .r1y => { g with r1y := d.setWidth 16 }
  | .r1w => { g with r1w := d.setWidth 16 }
  | .r1h => { g with r1h := d.setWidth 16 }
  | .r2x => { g with r2x := d.setWidth 16 }
  | .r2y => { g with r2y := d.setWidth 16 }
  | .r2w => { g with r2w := d.setWidth 16 }
  | .r2h => { g with r2h := d.setWidth 16 }

/-! ### The state -/

/-- The state with another frame buffer. -/
def State.setFb (s : State) (fb : FrameBuffer) : State := { s with fb := fb }

/-- `STATUS.HIT <- b` (R12, R38). -/
def State.setHit (s : State) (b : Bool) : State := { s with hit := b }

/-- The state with other operand registers. -/
def State.setRegs (s : State) (g : OperandRegs) : State := { s with regs := g }

/-- The state with the host's remaining transactions replaced. -/
def State.setPending (s : State) (ts : List Transaction) : State := { s with pending := ts }

/-- A read's result handed to the host (R80). -/
def State.reply (s : State) (r : Reply) : State := { s with replies := r :: s.replies }

/-- `x[NAME] <- v`: "only a host register write does this, no command does" (R12, R40). -/
def State.writeOperand (s : State) (r : OperandReg) (d : Data) : State :=
  s.setRegs (s.regs.write s.platform.aw r d)

/-- `FB[x, y]` of a state, for in-bounds `x`, `y`. -/
def State.pixel (s : State) (x y : Nat) : Bool := FrameBuffer.get s.fb x y

end Machine

end Sys2Proof
end

