-- ==== Sys2Proof/Machine/Bitmap.lean ====
section
/-! DEFINITION. The bitmap decoder: header, frame size, frame base and pixel lookup (40_bitmap_format.md), pure functions
of the platform's memory and their arguments. All arithmetic is exact (R9, R60). -/

namespace Sys2Proof.Machine

/-- Header decode (R101): `w` is the byte at `bitmap`, `h` the byte at `bitmap + 1`; no result where a header byte lies
at or beyond `ROM_SIZE` (R53). -/
def header (p : Platform) (bitmap : Nat) : Option (Nat × Nat) :=
  match p.memRead bitmap, p.memRead (bitmap + 1) with
  | some w, some h => some (w.toNat, h.toNat)
  | _, _ => none

/-- Frame size of an image-only bitmap or an external mask (R102). -/
def frameByteSize (w h : Nat) : Nat := w * (h / 8)

/-- Frame size of a Combined Bitmap (R102). -/
def frameByteSizeCombined (w h : Nat) : Nat := 2 * w * (h / 8)

/-- Base of a frame of an image-only bitmap (R103). -/
def imageBase (bitmap frame w h : Nat) : Nat := bitmap + 2 + frame * frameByteSize w h

/-- Base of a frame of a Combined Bitmap (R103). -/
def combinedBase (bitmap frame w h : Nat) : Nat := bitmap + 2 + frame * frameByteSizeCombined w h

/-- Base of a frame of an external mask: header size 0 (R103). -/
def maskBase (mask maskFrame w h : Nat) : Nat := mask + maskFrame * frameByteSize w h

/-- Bit `r` of a column byte, bit 0 the least significant and the topmost pixel (R10, R55; log entry 11). -/
def columnBit (b : Byte) (r : Nat) : Bool := b.getLsbD r

/-- Address of the byte that holds pixel `(k, j)` of an image-only frame (R104). -/
def imgByteAddr (base w k j : Nat) : Nat := base + (j / 8) * w + k

/-- Pixel `(k, j)` of an image-only frame (R104). -/
def imgPixel (p : Platform) (base w k j : Nat) : Bool := columnBit (p.byteAt (imgByteAddr base w k j)) (j % 8)

/-- Address of the image byte of a Combined Bitmap's pixel `(k, j)` (R105; log entry 12). -/
def cmbImgByteAddr (base w k j : Nat) : Nat := base + (j / 8) * (2 * w) + 2 * k

/-- Address of the mask byte of a Combined Bitmap's pixel `(k, j)` (R105; log entry 12). -/
def cmbMskByteAddr (base w k j : Nat) : Nat := base + (j / 8) * (2 * w) + 2 * k + 1

/-- Image pixel `(k, j)` of a combined frame (R105). -/
def cmbImgPixel (p : Platform) (base w k j : Nat) : Bool :=
  columnBit (p.byteAt (cmbImgByteAddr base w k j)) (j % 8)

/-- Mask pixel `(k, j)` of a combined frame (R105). -/
def cmbMskPixel (p : Platform) (base w k j : Nat) : Bool :=
  columnBit (p.byteAt (cmbMskByteAddr base w k j)) (j % 8)

/-- Pixel `(k, j)` of a frame of an external mask, addressed with the image's `w`, `h` (R106). -/
def mskPixel (p : Platform) (mask maskFrame w h k j : Nat) : Bool :=
  imgPixel p (maskBase mask maskFrame w h) w k j

/-- Entry `[k, j]` of the decoded pixel matrix of frame `f` (R111). -/
def decodedPixel (p : Platform) (bitmap f w h k j : Nat) : Bool := imgPixel p (imageBase bitmap f w h) w k j

/-- The byte cursor of R107 at row `j`: the base at row 0, a stride added each time `j` passes from `8b+7` to `8b+8`. -/
def bandCursor (base stride : Nat) : Nat → Nat
  | 0 => base
  | j + 1 => if (j + 1) % 8 = 0 then bandCursor base stride j + stride else bandCursor base stride j

/-- Bytes of an image-only bitmap of `n` frames (R114). -/
def bitmapExtent (n w h : Nat) : Nat := 2 + n * frameByteSize w h

/-- Bytes of a Combined Bitmap of `n` frames (R114). -/
def combinedExtent (n w h : Nat) : Nat := 2 + n * frameByteSizeCombined w h

/-- Bytes of an external mask of `n` frames (R114). -/
def maskExtent (n w h : Nat) : Nat := n * frameByteSize w h

/-- Every one of the `size` bytes from `base` lies below `ROM_SIZE` (R60); a frame of no bytes has no address
(R110; log entry 20). -/
def frameInMemory (p : Platform) (base size : Nat) : Bool := size == 0 || decide (base + size ≤ p.romSize)

end Sys2Proof.Machine
end

