-- ==== Sys2Proof/Machine/Operands.lean ====
section
/-! DEFINITION. How a command's operands are formed from the operand registers at the moment CMD is written (R86). -/

namespace Sys2Proof.Machine

/-- `sext_16` (R11): `v` if `v < 2^15`, else `v - 2^16`. -/
def sext16 (v : Half) : Int := if v.toNat < 2 ^ 15 then (v.toNat : Int) else (v.toNat : Int) - 2 ^ 16

/-- The operands of the DRAW and PIXEL commands (R86). -/
structure DrawOperands where
  /-- Destination column of the frame's pixel `(0, 0)`. -/
  x : Int
  /-- Destination row of the frame's pixel `(0, 0)`. -/
  y : Int
  /-- Address of the bitmap's first header byte. -/
  bitmap : Nat
  /-- Frame index. -/
  frame : Nat
  /-- Address of the external mask's first data byte. -/
  mask : Nat
  /-- Mask frame index. -/
  maskFrame : Nat
  deriving DecidableEq, Repr

/-- `x, y, bitmap, frame, mask, maskFrame` of R86: positions sign-extended, the others zero-extended. -/
def drawOperands (g : OperandRegs) : DrawOperands :=
  { x := sext16 g.posx, y := sext16 g.posy, bitmap := g.bmp.toNat, frame := g.frm.toNat, mask := g.msk.toNat,
    maskFrame := g.mfrm.toNat }

/-- An axis-aligned rectangle (R15, R160). -/
structure Rect where
  /-- Leftmost column. -/
  x : Int
  /-- Topmost row. -/
  y : Int
  /-- Width in pixels. -/
  w : Nat
  /-- Height in pixels. -/
  h : Nat
  deriving DecidableEq, Repr

/-- `r1` of R86. -/
def rect1 (g : OperandRegs) : Rect :=
  { x := sext16 g.r1x, y := sext16 g.r1y, w := g.r1w.toNat, h := g.r1h.toNat }

/-- `r2` of R86. -/
def rect2 (g : OperandRegs) : Rect :=
  { x := sext16 g.r2x, y := sext16 g.r2y, w := g.r2w.toNat, h := g.r2h.toNat }

end Sys2Proof.Machine
end

