-- ==== Sys2Proof/Machine/Draw.lean ====
section
/-! DEFINITION. The blit engine: what the five DRAW commands share (R135 to R140), and the five commands (R141 to R145). -/

namespace Sys2Proof.Machine

/-- The combination rule (R136). -/
def combine (mode : DrawMode) (img msk dst : Bool) : Bool :=
  match mode with
  | .extMask => if msk then img else dst
  | .plusMask => if msk then img else dst
  | .overwrite => img
  | .erase => if img then false else dst
  | .selfMask => if img then true else dst

/-- `srcImg(i, j)` of R140. -/
def srcImg (mode : DrawMode) (p : Platform) (o : DrawOperands) (w h i j : Nat) : Bool :=
  match mode with
  | .extMask => imgPixel p (imageBase o.bitmap o.frame w h) w i j
  | .plusMask => cmbImgPixel p (combinedBase o.bitmap o.frame w h) w i j
  | .overwrite => imgPixel p (imageBase o.bitmap o.frame w h) w i j
  | .erase => imgPixel p (imageBase o.bitmap o.frame w h) w i j
  | .selfMask => imgPixel p (imageBase o.bitmap o.frame w h) w i j

/-- `srcMsk(i, j)` of R140. The last three modes fetch no mask; `combine` ignores what stands here for them
(log entry 21). -/
def srcMsk (mode : DrawMode) (p : Platform) (o : DrawOperands) (w h i j : Nat) : Bool :=
  match mode with
  | .extMask => mskPixel p o.mask o.maskFrame w h i j
  | .plusMask => cmbMskPixel p (combinedBase o.bitmap o.frame w h) w i j
  | .overwrite => false
  | .erase => false
  | .selfMask => false

/-- Every frame byte the command reads lies below `ROM_SIZE` (R60): the image or combined frame and, in
DRAW.EXTMASK, the mask frame. The header's two bytes are `header`'s. -/
def framesInMemory (mode : DrawMode) (p : Platform) (o : DrawOperands) (w h : Nat) : Bool :=
  match mode with
  | .extMask =>
    frameInMemory p (imageBase o.bitmap o.frame w h) (frameByteSize w h)
      && frameInMemory p (maskBase o.mask o.maskFrame w h) (frameByteSize w h)
  | .plusMask => frameInMemory p (combinedBase o.bitmap o.frame w h) (frameByteSizeCombined w h)
  | .overwrite => frameInMemory p (imageBase o.bitmap o.frame w h) (frameByteSize w h)
  | .erase => frameInMemory p (imageBase o.bitmap o.frame w h) (frameByteSize w h)
  | .selfMask => frameInMemory p (imageBase o.bitmap o.frame w h) (frameByteSize w h)

/-- The source pixels `(i, j)` in the order of R137's loops: rows `j` outside, columns `i` inside. -/
def drawOrder (w h : Nat) : List (Nat × Nat) :=
  (List.range h).flatMap fun j => (List.range w).map fun i => (i, j)

/-- One turn of R137's loop: the destination is formed exactly, skipped out of bounds, else combined and written
(R137, R138). -/
def drawPixel (mode : DrawMode) (p : Platform) (o : DrawOperands) (w h : Nat) (fb : FrameBuffer) (ij : Nat × Nat) :
    FrameBuffer :=
  let dx : Int := o.x + ij.1
  let dy : Int := o.y + ij.2
  if inBounds dx dy then
    fbWrite fb dx dy
      (combine mode (srcImg mode p o w h ij.1 ij.2) (srcMsk mode p o w h ij.1 ij.2)
        (FrameBuffer.get fb dx.toNat dy.toNat))
  else fb

/-- R137's pixel loop over a frame of `w` by `h` pixels. -/
def blit (mode : DrawMode) (p : Platform) (o : DrawOperands) (w h : Nat) (fb : FrameBuffer) : FrameBuffer :=
  (drawOrder w h).foldl (drawPixel mode p o w h) fb

/-- `draw(x, y, bitmap, frame, mask, maskFrame, mode)` (R137): decode the header, stop where the spec defines no result
(U1, U2; log entries 8 and 9), else run the loop. Only the frame buffer changes (R44, R150). -/
def draw (mode : DrawMode) (s : State) : Host.Outcome State Fault Refusal :=
  match header s.platform (drawOperands s.regs).bitmap with
  | none => .refused .beyondBitmapMemory
  | some (w, h) =>
    if h % 8 ≠ 0 then .refused .heightNotMultipleOf8
    else if framesInMemory mode s.platform (drawOperands s.regs) w h then
      .next (s.setFb (blit mode s.platform (drawOperands s.regs) w h s.fb))
    else .refused .beyondBitmapMemory

/-- DRAW.EXTMASK (R141). -/
def execDrawExtmask (s : State) : Host.Outcome State Fault Refusal := draw .extMask s

/-- DRAW.PLUSMASK (R142). -/
def execDrawPlusmask (s : State) : Host.Outcome State Fault Refusal := draw .plusMask s

/-- DRAW.OVERWRITE (R143). -/
def execDrawOverwrite (s : State) : Host.Outcome State Fault Refusal := draw .overwrite s

/-- DRAW.ERASE (R144). -/
def execDrawErase (s : State) : Host.Outcome State Fault Refusal := draw .erase s

/-- DRAW.SELFMASK (R145). -/
def execDrawSelfmask (s : State) : Host.Outcome State Fault Refusal := draw .selfMask s

end Sys2Proof.Machine
end

