-- ==== Sys2Proof/Machine/Flags.lean ====
section
/-! DEFINITION. The one flag of the SBE, STATUS.HIT (R38), and the function that computes it (R160). -/

namespace Sys2Proof.Machine

/-- `collide(r1, r2)` (R160): all four sizes non-zero, and none of the four separations; all sums exact.
The first four conjuncts are the resolution of 90_conflicts.md C1 (log entry 18). -/
def collide (r1 r2 : Rect) : Bool :=
  decide (r1.w > 0 ∧ r1.h > 0 ∧ r2.w > 0 ∧ r2.h > 0
    ∧ r2.x < r1.x + r1.w ∧ r2.x + r2.w > r1.x
    ∧ r2.y < r1.y + r1.h ∧ r2.y + r2.h > r1.y)

/-- STATUS as the host reads it: HIT in bit 0, bits 31:1 zero (R38, R41). -/
def statusWord (hit : Bool) : Data := if hit then 1 else 0

end Sys2Proof.Machine
end

