-- ==== Sys2Proof/Machine/Geometry.lean ====
section
/-! DEFINITION. The collision test: COLLIDE (R161). -/

namespace Sys2Proof.Machine

/-- COLLIDE (R161): `STATUS.HIT <- collide(r1, r2)`, and nothing else. -/
def execCollide (s : State) : Host.Outcome State Fault Refusal :=
  .next (s.setHit (collide (rect1 s.regs) (rect2 s.regs)))

end Sys2Proof.Machine
end

