-- ==== Sys2Proof/Machine/Pixel.lean ====
section
/-! DEFINITION. The frame buffer primitives: PIXEL.CLR (R122), PIXEL.SET (R123), FB.CLEAR (R125). -/

namespace Sys2Proof.Machine

/-- `FbWrite(x, y, b)` at POSX, POSY (R121, R86). -/
def writePixelAtPos (b : Bool) (s : State) : State :=
  s.setFb (fbWrite s.fb (drawOperands s.regs).x (drawOperands s.regs).y b)

/-- PIXEL.CLR (R122). -/
def execPixelClr (s : State) : Host.Outcome State Fault Refusal := .next (writePixelAtPos false s)

/-- PIXEL.SET (R123). -/
def execPixelSet (s : State) : Host.Outcome State Fault Refusal := .next (writePixelAtPos true s)

/-- FB.CLEAR (R125). -/
def execFbClear (s : State) : Host.Outcome State Fault Refusal := .next (s.setFb fbCleared)

end Sys2Proof.Machine
end

