-- ==== Sys2Proof/Machine/Dispatch.lean ====
section
/-! DEFINITION. One arm per command: what executing it does to a state (R83). -/

namespace Sys2Proof.Machine

def exec (i : Instr) (s : State) : Host.Outcome State Fault Refusal :=
  match i with
  | .drawExtmask => Sys2Proof.Machine.execDrawExtmask s
  | .drawPlusmask => Sys2Proof.Machine.execDrawPlusmask s
  | .drawOverwrite => Sys2Proof.Machine.execDrawOverwrite s
  | .drawErase => Sys2Proof.Machine.execDrawErase s
  | .drawSelfmask => Sys2Proof.Machine.execDrawSelfmask s
  | .pixelClr => Sys2Proof.Machine.execPixelClr s
  | .pixelSet => Sys2Proof.Machine.execPixelSet s
  | .fbClear => Sys2Proof.Machine.execFbClear s
  | .collide => Sys2Proof.Machine.execCollide s

end Sys2Proof.Machine
end

