-- ==== Sys2Proof/Machine/Bus.lean ====
section
/-! DEFINITION. The host's transactions: `RegWrite` (R40), `RegRead` (R41), `FbRead` (R129). -/

namespace Sys2Proof.Machine

/-- A write to CMD: the command that `d[7:0]` selects is executed; a reserved code is refused (R39, R83, R88). -/
def writeCommand (d : Data) (s : State) : Host.Outcome State Fault Refusal :=
  match decode d with
  | .ok i => exec i s
  | .error (.reservedCommand code) => .refused (.reservedCommand code)

/-- `RegWrite(a, d)` (R40). -/
def regWrite (a : RegAddr) (d : Data) (s : State) : Host.Outcome State Fault Refusal :=
  match decodeRegister a with
  | some .cmd => writeCommand d s
  | some .status => .next s
  | some (.operand r) => .next (s.writeOperand r d)
  | none => .refused (.reservedRegister a)

/-- The 32 bits that a read of a defined register returns: CMD reads 0 (R39), STATUS its HIT bit (R38), an operand
register its stored bits (R41). -/
def busValue (s : State) : RegName → Data
  | .cmd => 0
  | .status => statusWord s.hit
  | .operand r => s.regs.read r

/-- `RegRead(a)` (R41): the value goes to the host and the SBE's state does not change. -/
def regRead (a : RegAddr) (s : State) : Host.Outcome State Fault Refusal :=
  match decodeRegister a with
  | some reg => .next (s.reply (.data (busValue s reg)))
  | none => .refused (.reservedRegister a)

/-- One host transaction (R80). -/
def transact (t : Transaction) (s : State) : Host.Outcome State Fault Refusal :=
  match t with
  | .regWrite a d => regWrite a d s
  | .regRead a => regRead a s
  | .fbRead n => .next (s.reply (.pixel (fbRead s.fb n)))

/-- The data of a CMD write whose low `nbits` bits are `w` and whose other bits are 0 (R81). -/
def commandWrite (nbits w : Nat) : Transaction :=
  .regWrite 0x00#6 (BitVec.ofNat 32 (w % 2 ^ nbits))

end Sys2Proof.Machine
end

