-- ==== Sys2Proof/Machine/Step.lean ====
section
/-! DEFINITION. One step is one host transaction (R14, R61): the next of the pending ones, or waiting where there is none
(R190). -/

namespace Sys2Proof.Machine

/-- The engine takes the host's next transaction and completes it before any later one (R14, R61). With none pending it
waits for the host and nothing changes (R190; log entry 5). -/
def step (s : State) : Host.Outcome State Fault Refusal :=
  match s.pending with
  | [] => .next s
  | t :: rest => transact t (s.setPending rest)

/-- The state whose very next step is the CMD write with these data bits: the write stands first among the pending
transactions (log entry 5). -/
def State.withFetchWord (s : State) (nbits w : Nat) : State :=
  s.setPending (commandWrite nbits w :: s.pending)

end Sys2Proof.Machine
end

