-- ==== Sys2Proof/Machine/Scanout.lean ====
section
/-! DEFINITION. Scan-out of a whole buffer in row-major order (R129) and the numbers of the P2 dump made from it (R130). -/

namespace Sys2Proof.Machine

/-- Reading `n = 0, 1, ..., 8191` in that order (R129). -/
def scanOut (fb : FrameBuffer) : List Bool :=
  (List.range (WIDTH * HEIGHT)).map fun n => fbRead fb (BitVec.ofNat 13 n)

/-- The number for one pixel of the dump: 0 for pixel 0, 255 for pixel 1 (R130). -/
def dumpSample (b : Bool) : Nat := if b then 255 else 0

/-- The numbers that follow the text `P2` in the dump: `128 64`, `255`, then one sample per pixel (R130). Separators and
line breaks are no part of the spec (log entry 22). -/
def dumpNumbers (fb : FrameBuffer) : List Nat := WIDTH :: HEIGHT :: 255 :: (scanOut fb).map dumpSample

end Sys2Proof.Machine
end

