-- ==== Sys2Proof/Safety.lean ====
section
/-! DEFINITION. What counts as a safe run, in the terms claims use: the state invariant, when a DRAW or a transaction has a
defined result (R139, R171), and the caller's preconditions of R196. -/

namespace Sys2Proof.Machine

/-- The invariant every step keeps: the platform's parameters lie in the ranges of R7 with its memory in canonical
form, and BMP and MSK hold no more than `AW` bits (R27, R29). -/
abbrev State.Inv (s : State) : Prop :=
  s.platform.wf ∧ s.regs.bmp.toNat < 2 ^ s.platform.aw ∧ s.regs.msk.toNat < 2 ^ s.platform.aw

/-- The bitmap-memory addresses of a DRAW beside its two header bytes (R60): all bytes of the selected frame and, in
DRAW.EXTMASK, of the selected mask frame. -/
def frameAddress (mode : DrawMode) (o : DrawOperands) (w h addr : Nat) : Prop :=
  match mode with
  | .extMask =>
    (∃ n < w * (h / 8), addr = o.bitmap + 2 + o.frame * (w * (h / 8)) + n)
      ∨ ∃ n < w * (h / 8), addr = o.mask + o.maskFrame * (w * (h / 8)) + n
  | .plusMask => ∃ n < 2 * w * (h / 8), addr = o.bitmap + 2 + o.frame * (2 * w * (h / 8)) + n
  | .overwrite => ∃ n < w * (h / 8), addr = o.bitmap + 2 + o.frame * (w * (h / 8)) + n
  | .erase => ∃ n < w * (h / 8), addr = o.bitmap + 2 + o.frame * (w * (h / 8)) + n
  | .selfMask => ∃ n < w * (h / 8), addr = o.bitmap + 2 + o.frame * (w * (h / 8)) + n

/-- When a DRAW has a defined result (R139): (a) the decoded height is a multiple of 8, and (b) every address of R60,
the header's two among them, is below `ROM_SIZE`. -/
def drawDefined (mode : DrawMode) (s : State) : Prop :=
  ∃ w h : Byte,
    s.platform.memRead s.regs.bmp.toNat = some w ∧ s.platform.memRead (s.regs.bmp.toNat + 1) = some h
      ∧ h.toNat % 8 = 0
      ∧ ∀ addr, frameAddress mode (drawOperands s.regs) w.toNat h.toNat addr → addr < s.platform.romSize

/-- When a command has a defined result: a DRAW as R139 says, the other four always (R122, R123, R125, R161). -/
def commandDefined (i : Instr) (s : State) : Prop := ∀ mode, i.drawMode = some mode → drawDefined mode s

/-- When a host transaction has a defined result (R171): a read or write of a register that exists, and for a write to
CMD one of the nine codes with its command defined; every `FbRead`. -/
def transactionDefined (t : Transaction) (s : State) : Prop :=
  match t with
  | .regWrite a d => a.toNat < 0x10 ∧ (a = 0 → ∃ i, decode d = .ok i ∧ commandDefined i s)
  | .regRead a => a.toNat < 0x10
  | .fbRead _ => True

/-- A run of `k` steps that meets no case the spec leaves without a result. -/
def safeRun (k : Nat) (s : State) : Prop := ∃ t, Sys2Proof.core.run k s = .next t

/-! ### What a command reads and writes -/

/-- The operand registers a command reads (R44, first column). -/
def operandsRead : Instr → List OperandReg
  | .drawExtmask => [.posx, .posy, .bmp, .frm, .msk, .mfrm]
  | .drawPlusmask => [.posx, .posy, .bmp, .frm]
  | .drawOverwrite => [.posx, .posy, .bmp, .frm]
  | .drawErase => [.posx, .posy, .bmp, .frm]
  | .drawSelfmask => [.posx, .posy, .bmp, .frm]
  | .pixelClr => [.posx, .posy]
  | .pixelSet => [.posx, .posy]
  | .fbClear => []
  | .collide => [.r1x, .r1y, .r1w, .r1h, .r2x, .r2y, .r2w, .r2h]

/-- The command completes, and what it does is to give every in-bounds destination `(POSX + i, POSY + j)` of a `w` by `h`
sprite the bit `new i j dst`, `dst` being the bit that pixel held before the command; every other pixel and every
other piece of state stays as it was (R137, R150). -/
def drawsPixels (i : Instr) (s : State) (w h : Nat) (new : Nat → Nat → Bool → Bool) : Prop :=
  ∃ fb : FrameBuffer, exec i s = .next { s with fb := fb }
    ∧ ∀ px py : Nat, px < WIDTH → py < HEIGHT →
      (∀ k j : Nat, k < w → j < h → (px : Int) = s.regs.posx.toInt + k → (py : Int) = s.regs.posy.toInt + j →
          FrameBuffer.get fb px py = new k j (s.pixel px py))
        ∧ (¬ (s.regs.posx.toInt ≤ px ∧ (px : Int) < s.regs.posx.toInt + w
              ∧ s.regs.posy.toInt ≤ py ∧ (py : Int) < s.regs.posy.toInt + h) →
          FrameBuffer.get fb px py = s.pixel px py)

/-! ### The caller's preconditions (R196), premises of claims about the intended picture -/

/-- An image-only self-describing bitmap of `n` frames of `w` by `h` pixels lies at `bitmap` (R100, R109, R114). -/
def imageBitmapAt (p : Platform) (bitmap n w h : Nat) : Prop :=
  header p bitmap = some (w, h) ∧ h % 8 = 0 ∧ bitmap + bitmapExtent n w h ≤ p.romSize

/-- A Combined Bitmap of `n` frames of `w` by `h` pixels lies at `bitmap` (R100, R109, R114). -/
def combinedBitmapAt (p : Platform) (bitmap n w h : Nat) : Prop :=
  header p bitmap = some (w, h) ∧ h % 8 = 0 ∧ bitmap + combinedExtent n w h ≤ p.romSize

/-- A headerless mask of `n` frames built for `w` by `h` pixels lies at `mask` (R100, R106, R114). -/
def maskArrayAt (p : Platform) (mask n w h : Nat) : Prop := mask + maskExtent n w h ≤ p.romSize

/-- The preconditions (a) to (e) of R196 for a DRAW in a mode, the bitmap at BMP having `n` frames and the mask at MSK
having `m`: height, frame counts, kinds of array, every byte in memory. -/
def callerPreconditions (mode : DrawMode) (s : State) (n m w h : Nat) : Prop :=
  match mode with
  | .extMask =>
    imageBitmapAt s.platform s.regs.bmp.toNat n w h ∧ s.regs.frm.toNat < n
      ∧ maskArrayAt s.platform s.regs.msk.toNat m w h ∧ s.regs.mfrm.toNat < m
  | .plusMask => combinedBitmapAt s.platform s.regs.bmp.toNat n w h ∧ s.regs.frm.toNat < n
  | .overwrite => imageBitmapAt s.platform s.regs.bmp.toNat n w h ∧ s.regs.frm.toNat < n
  | .erase => imageBitmapAt s.platform s.regs.bmp.toNat n w h ∧ s.regs.frm.toNat < n
  | .selfMask => imageBitmapAt s.platform s.regs.bmp.toNat n w h ∧ s.regs.frm.toNat < n

end Sys2Proof.Machine
end

