-- ==== Sys2Proof/Certificates/Slice0/Obligations.lean ====
section
/-! DEFINITION. The statements about the SBE, from the numbered rules of spec/. -/

open Sys2Proof Sys2Proof.Machine

/-! ### Encodings -/

/-- The nine codes of R83, written out bit by bit from the encoding column of the opcode table; the last word has
non-zero upper bits, which are ignored (R81). -/
def Obligations.TabulatedCommandWordsDecode : Prop :=
  decode 0b00000000000000000000000000010000#32 = .ok .drawExtmask
    ∧ decode 0b00000000000000000000000000010001#32 = .ok .drawPlusmask
    ∧ decode 0b00000000000000000000000000010010#32 = .ok .drawOverwrite
    ∧ decode 0b00000000000000000000000000010011#32 = .ok .drawErase
    ∧ decode 0b00000000000000000000000000010100#32 = .ok .drawSelfmask
    ∧ decode 0b00000000000000000000000000100000#32 = .ok .pixelClr
    ∧ decode 0b00000000000000000000000000100001#32 = .ok .pixelSet
    ∧ decode 0b00000000000000000000000000110000#32 = .ok .fbClear
    ∧ decode 0b00000000000000000000000001000000#32 = .ok .collide
    ∧ decode 0b10101011110011011110111100100001#32 = .ok .pixelSet

/-- R83: "A command is selected by the exact value of `d[7:0]` (mask 0xFF)", the complete map: nine codes, every other value
reserved. -/
def Obligations.CommandSelectedByExactLowByte : Prop :=
  ∀ d : Data,
    (∀ i : Instr, decode d = .ok i ↔
      (d.toNat % 256, i) ∈
        [(0x10, Instr.drawExtmask), (0x11, Instr.drawPlusmask), (0x12, Instr.drawOverwrite), (0x13, Instr.drawErase),
          (0x14, Instr.drawSelfmask), (0x20, Instr.pixelClr), (0x21, Instr.pixelSet), (0x30, Instr.fbClear),
          (0x40, Instr.collide)])
      ∧ ∀ c : Byte, decode d = .error (.reservedCommand c) ↔
        c.toNat = d.toNat % 256 ∧ d.toNat % 256 ∉ [0x10, 0x11, 0x12, 0x13, 0x14, 0x20, 0x21, 0x30, 0x40]

/-- Decoding and encoding agree on every command (R81, R83): the code is one byte, it decodes back, and a word decodes to
the command exactly if its low byte is the code, whatever its upper 24 bits. -/
def Obligations.EncodedCommandsDecodeBack : Prop :=
  ∀ (i : Instr) (d : Data), i.wf = true →
    (encode i).toNat < 256 ∧ decode (encode i) = .ok i
      ∧ (decode d = .ok i ↔ d.extractLsb' 0 8 = (encode i).extractLsb' 0 8)

/-- R84: the draw mode is the FN field of a GRP 1 command, numbered in the order of the table, each mode's combination rule
beside it; FN 5..15 are reserved. -/
def Obligations.DrawModeIsTheFunctionField : Prop :=
  ∀ d : Data, d.toNat / 16 % 16 = 1 →
    (∀ i mode, i.drawMode = some mode → (decode d = .ok i ↔ d.toNat % 16 = mode.number))
      ∧ (5 ≤ d.toNat % 16 → ∃ e, decode d = .error e)
      ∧ ∀ (i : Instr) (mode : DrawMode) (img msk dst : Bool), decode d = .ok i → i.drawMode = some mode →
        combine mode img msk dst
          = [cond msk img dst, cond msk img dst, img, cond img false dst, cond img true dst].getD (d.toNat % 16) false

/-- R85: the pixel value of a GRP 2 command is FN bit 0; the codes that R85 reserves are refused by the decoder. -/
def Obligations.PixelValueIsFunctionBit : Prop :=
  ∀ (d : Data) (s : State),
    (d.toNat / 16 % 16 = 2 → d.toNat % 16 < 2 →
      ∃ i, decode d = .ok i
        ∧ exec i s = .next { s with fb := fbWrite s.fb s.regs.posx.toInt s.regs.posy.toInt (d.getLsbD 0) })
      ∧ (d.toNat / 16 % 16 = 2 → 2 ≤ d.toNat % 16 → ∃ e, decode d = .error e)
      ∧ (d.toNat / 16 % 16 = 3 → (d.toNat % 16 = 0 ↔ ∃ i, decode d = .ok i))
      ∧ (d.toNat / 16 % 16 = 4 → (d.toNat % 16 = 0 ↔ ∃ i, decode d = .ok i))
      ∧ (d.toNat / 16 % 16 = 0 ∨ 5 ≤ d.toNat / 16 % 16 → ∃ e, decode d = .error e)

/-- The register map (R25, R38, R39, R42, R59): sixteen defined addresses, each its own register; 0x10 to 0x3F
are reserved. -/
def Obligations.RegisterAddressMap : Prop :=
  (∀ (a : RegAddr) (r : RegName), decodeRegister a = some r ↔
      (a.toNat, r) ∈
        [(0x00, RegName.cmd), (0x01, RegName.status), (0x02, RegName.operand .posx), (0x03, RegName.operand .posy),
          (0x04, RegName.operand .bmp), (0x05, RegName.operand .frm), (0x06, RegName.operand .msk),
          (0x07, RegName.operand .mfrm), (0x08, RegName.operand .r1x), (0x09, RegName.operand .r1y),
          (0x0A, RegName.operand .r1w), (0x0B, RegName.operand .r1h), (0x0C, RegName.operand .r2x),
          (0x0D, RegName.operand .r2y), (0x0E, RegName.operand .r2w), (0x0F, RegName.operand .r2h)])
    ∧ ∀ a : RegAddr, decodeRegister a = none ↔ 0x10 ≤ a.toNat

/-- Listing lines (R90): a well-formed `wr` writes its value, in 32 bits two's complement, to the address of its register;
`rd` reads there; `fb n` reads pixel index `n`; `cmd MNEMONIC` is "the same as `wr CMD, code`". -/
def Obligations.ListingLinesAssemble : Prop :=
  (∀ (reg : RegName) (v : Int), (Line.wr reg v).wf = true →
      ∃ a d, (Line.wr reg v).assemble = .regWrite a d ∧ decodeRegister a = some reg ∧ (d.toNat : Int) = v % 2 ^ 32)
    ∧ (∀ reg : RegName, ∃ a, (Line.rd reg).assemble = .regRead a ∧ decodeRegister a = some reg)
    ∧ (∀ n : Nat, (Line.fb n).wf = true → ∃ k, (Line.fb n).assemble = .fbRead k ∧ k.toNat = n)
    ∧ ∀ i : Instr, (Line.cmd i).assemble = (Line.wr .cmd (encodeByte i).toNat).assemble

/-! ### Reset, invariant, step -/

/-- R45: after reset every operand register holds 0 and HIT is 0, whatever the frame buffer holds and on any platform. Two
clauses are the model's choices and no rule's: that nothing is pending after reset (log entry 5), and that the buffer of
`State.reset` is the free value `Config.resetFb` (log entry 4; its platform is log entry 2's). -/
def Obligations.ResetValues : Prop :=
  (∀ (p : Platform) (fb : FrameBuffer),
      (∀ r : OperandReg, (State.powerOn p fb).regs.read r = 0) ∧ (State.powerOn p fb).hit = false
        ∧ (State.powerOn p fb).fb = fb ∧ (State.powerOn p fb).platform = p ∧ (State.powerOn p fb).pending = [])
    ∧ ∃ p, State.reset = State.powerOn p Config.resetFb

/-- The invariant holds after reset on every well-formed platform, in particular in `State.reset` (whose platform is the
model's choice, log entry 2). -/
def Obligations.InvariantHoldsAfterReset : Prop :=
  State.reset.Inv ∧ ∀ (p : Platform) (fb : FrameBuffer), p.wf → (State.powerOn p fb).Inv

/-- Every step keeps the invariant: the platform's parameters in the ranges of R7 and its memory in canonical form, BMP
and MSK within `AW` bits (R27, R29). -/
def Obligations.EveryStepKeepsInvariant : Prop :=
  ∀ s t : State, s.Inv → step s = .next t → t.Inv

/-- R52: "Bitmap memory is read-only and constant. No command writes it": after any step every byte reads as before, and
its size and the address width are what they were (R22). -/
def Obligations.BitmapMemoryIsConstant : Prop :=
  ∀ s t : State, step s = .next t →
    (∀ addr : Nat, t.platform.memRead addr = s.platform.memRead addr) ∧ t.platform = s.platform

/-- A step whose next transaction is a write to CMD runs the command its data decode to, on the state without that
transaction (R39, R61). -/
def Obligations.StepRunsTheDecodedCommand : Prop :=
  ∀ (s : State) (d : Data) (rest : List Transaction) (i : Instr),
    s.pending = .regWrite 0x00#6 d :: rest → decode d = .ok i → i.wf = true →
      step s = exec i { s with pending := rest }

/-- R14, R61: a completed step takes exactly the first pending transaction, and returns at most one value; with none pending
the engine waits and nothing changes (R190; the waiting step is the model's, log entry 5). -/
def Obligations.StepTakesOneTransaction : Prop :=
  (∀ s : State, s.pending = [] → step s = .next s)
    ∧ ∀ (s t : State) (tr : Transaction) (rest : List Transaction), s.pending = tr :: rest → step s = .next t →
      t.pending = rest
        ∧ match tr with
          | .regWrite _ _ => t.replies = s.replies
          | .regRead _ => ∃ d, t.replies = .data d :: s.replies
          | .fbRead _ => ∃ b, t.replies = .pixel b :: s.replies

/-- When a step completes, for all transactions (R171's "complete list"): exactly if the pending transaction is a read or
write of a register that exists, a CMD write of one of the nine codes whose DRAW is defined, or an `FbRead`. That a step with nothing pending
completes, the engine waiting, is the model's (log entry 5). -/
def Obligations.StepCompletesExactlyWhenDefined : Prop :=
  ∀ s : State,
    (∃ t, step s = .next t)
      ↔ ∀ (tr : Transaction) (rest : List Transaction), s.pending = tr :: rest → transactionDefined tr s

/-! ### Host transactions -/

/-- R40, every case of `RegWrite(a, d)`: an operand register takes the low bits of its width and nothing else changes;
CMD executes; STATUS ignores; 0x10..0x3F are refused; the two writes of -8 to POSX. -/
def Obligations.RegisterWriteTransaction : Prop :=
  ∀ (s : State) (a : RegAddr) (d : Data) (rest : List Transaction), s.pending = .regWrite a d :: rest →
    (∀ e ∈ [(0x02, OperandReg.posx, 16), (0x03, OperandReg.posy, 16), (0x04, OperandReg.bmp, s.platform.aw),
          (0x05, OperandReg.frm, 8), (0x06, OperandReg.msk, s.platform.aw), (0x07, OperandReg.mfrm, 8),
          (0x08, OperandReg.r1x, 16), (0x09, OperandReg.r1y, 16), (0x0A, OperandReg.r1w, 16),
          (0x0B, OperandReg.r1h, 16), (0x0C, OperandReg.r2x, 16), (0x0D, OperandReg.r2y, 16),
          (0x0E, OperandReg.r2w, 16), (0x0F, OperandReg.r2h, 16)],
        a.toNat = e.1 →
          ∃ g : OperandRegs, step s = .next { s with pending := rest, regs := g }
            ∧ (g.read e.2.1).toNat = d.toNat % 2 ^ e.2.2
            ∧ ∀ r, r ≠ e.2.1 → g.read r = s.regs.read r)
      ∧ (a.toNat = 0x00 → ∀ i, decode d = .ok i → step s = exec i { s with pending := rest })
      ∧ (a.toNat = 0x01 → step s = .next { s with pending := rest })
      ∧ (0x10 ≤ a.toNat → step s = .refused (.reservedRegister a))
      ∧ (a.toNat = 0x02 → d = 0xFFFFFFF8#32 ∨ d = 0x0000FFF8#32 →
          ∃ t, step s = .next t ∧ sext16 t.regs.posx = -8)

/-- R41, every case of `RegRead(a)`: the stored bits zero-extended, CMD 0, STATUS its HIT bit, and no change of the
SBE's state; 0x10..0x3F are refused. -/
def Obligations.RegisterReadTransaction : Prop :=
  ∀ (s : State) (a : RegAddr) (rest : List Transaction), s.pending = .regRead a :: rest →
    (∀ e ∈ [(0x00, 0), (0x01, cond s.hit 1 0), (0x02, s.regs.posx.toNat), (0x03, s.regs.posy.toNat),
          (0x04, s.regs.bmp.toNat), (0x05, s.regs.frm.toNat), (0x06, s.regs.msk.toNat), (0x07, s.regs.mfrm.toNat),
          (0x08, s.regs.r1x.toNat), (0x09, s.regs.r1y.toNat), (0x0A, s.regs.r1w.toNat), (0x0B, s.regs.r1h.toNat),
          (0x0C, s.regs.r2x.toNat), (0x0D, s.regs.r2y.toNat), (0x0E, s.regs.r2w.toNat), (0x0F, s.regs.r2h.toNat)],
        a.toNat = e.1 →
          ∃ v : Data, v.toNat = e.2 ∧ step s = .next { s with pending := rest, replies := .data v :: s.replies })
      ∧ (0x10 ≤ a.toNat → step s = .refused (.reservedRegister a))

/-- R129: `FbRead(n)` returns the bit `FB[n % WIDTH, n / WIDTH]` and changes nothing of the SBE; the pixel `(x, y)` has
index `y * 128 + x`. -/
def Obligations.ScanOutRead : Prop :=
  ∀ (s : State) (n : PixelIndex) (rest : List Transaction), s.pending = .fbRead n :: rest →
    step s = .next { s with pending := rest, replies := .pixel (s.pixel (n.toNat % 128) (n.toNat / 128)) :: s.replies }
      ∧ ∀ x y : Nat, x < 128 → y < 64 → n.toNat = y * 128 + x →
        step s = .next { s with pending := rest, replies := .pixel (s.pixel x y) :: s.replies }

/-- R88 and R42: a CMD write whose low byte is none of the nine codes is refused, with that byte; so are a read and a write
of every address from 0x10 on. -/
def Obligations.ReservedTransactionsAreRefused : Prop :=
  ∀ (s : State) (d : Data) (a : RegAddr) (rest : List Transaction),
    (s.pending = .regWrite 0x00#6 d :: rest →
      (step s = .refused (.reservedCommand (d.setWidth 8))
        ↔ d.toNat % 256 ∉ [0x10, 0x11, 0x12, 0x13, 0x14, 0x20, 0x21, 0x30, 0x40]))
      ∧ (s.pending = .regWrite a d :: rest →
        (step s = .refused (.reservedRegister a) ↔ 0x10 ≤ a.toNat))
      ∧ (s.pending = .regRead a :: rest →
        (step s = .refused (.reservedRegister a) ↔ 0x10 ≤ a.toNat))

/-! ### Frame buffer primitives -/

/-- R122: PIXEL.CLR writes 0 to the pixel at POSX, POSY if it is in bounds, changes no other pixel and nothing else; it
always completes. -/
def Obligations.PixelClrResult : Prop :=
  decode 0x20#32 = .ok .pixelClr ∧ ∀ s : State, ∃ fb : FrameBuffer, exec .pixelClr s = .next { s with fb := fb }
    ∧ (∀ px py : Nat, px < WIDTH → py < HEIGHT →
        FrameBuffer.get fb px py
          = if (px : Int) = s.regs.posx.toInt ∧ (py : Int) = s.regs.posy.toInt then false else s.pixel px py)
    ∧ (¬ inBounds s.regs.posx.toInt s.regs.posy.toInt → fb = s.fb)

/-- R123: PIXEL.SET writes 1 to the pixel at POSX, POSY if it is in bounds, changes no other pixel and nothing else; it
always completes. -/
def Obligations.PixelSetResult : Prop :=
  decode 0x21#32 = .ok .pixelSet ∧ ∀ s : State, ∃ fb : FrameBuffer, exec .pixelSet s = .next { s with fb := fb }
    ∧ (∀ px py : Nat, px < WIDTH → py < HEIGHT →
        FrameBuffer.get fb px py
          = if (px : Int) = s.regs.posx.toInt ∧ (py : Int) = s.regs.posy.toInt then true else s.pixel px py)
    ∧ (¬ inBounds s.regs.posx.toInt s.regs.posy.toInt → fb = s.fb)

/-- R124: the pixel commands are idempotent; at one in-bounds position the later of the two decides the pixel; at different
positions any two commute; neither changes another pixel. -/
def Obligations.PixelCommandLaws : Prop :=
  (∀ i ∈ [Instr.pixelClr, Instr.pixelSet], ∀ s t : State, exec i s = .next t →
      exec i t = .next t
        ∧ ∀ px py : Nat, px < WIDTH → py < HEIGHT →
          ¬ ((px : Int) = s.regs.posx.toInt ∧ (py : Int) = s.regs.posy.toInt) → t.pixel px py = s.pixel px py)
    ∧ (∀ s t u : State, inBounds s.regs.posx.toInt s.regs.posy.toInt →
        (exec .pixelSet s = .next t → exec .pixelClr t = .next u →
          u.pixel s.regs.posx.toInt.toNat s.regs.posy.toInt.toNat = false)
        ∧ (exec .pixelClr s = .next t → exec .pixelSet t = .next u →
          u.pixel s.regs.posx.toInt.toNat s.regs.posy.toInt.toNat = true))
    ∧ ∀ i ∈ [Instr.pixelClr, Instr.pixelSet], ∀ j ∈ [Instr.pixelClr, Instr.pixelSet],
      ∀ (s t u t' u' : State) (g g' : OperandRegs), ¬ (g.posx = g'.posx ∧ g.posy = g'.posy) →
        exec i { s with regs := g } = .next t → exec j { t with regs := g' } = .next u →
        exec j { s with regs := g' } = .next t' → exec i { t' with regs := g } = .next u' →
          u.fb = u'.fb

/-- R125: FB.CLEAR makes every pixel 0, whatever the buffer held, and changes nothing else; every `FbRead` then returns 0; it
always completes. It is "the only command whose result does not depend on the previous frame-buffer contents": of
every other command there are two states, different in the buffer alone, that it leaves as they are. -/
def Obligations.FbClearResult : Prop :=
  decode 0x30#32 = .ok .fbClear ∧ (∀ s : State, ∃ fb : FrameBuffer, exec .fbClear s = .next { s with fb := fb }
    ∧ (∀ px py : Nat, px < WIDTH → py < HEIGHT → FrameBuffer.get fb px py = false)
    ∧ (∀ n : PixelIndex, fbRead fb n = false)
    ∧ ∀ old : FrameBuffer, exec .fbClear { s with fb := old } = .next { s with fb := fb })
    ∧ ∀ i : Instr, i ≠ .fbClear → ∃ (s : State) (fb : FrameBuffer), fb ≠ s.fb ∧ exec i s = .next s
      ∧ exec i { s with fb := fb } = .next { s with fb := fb }

/-! ### The five DRAW commands -/

/-- R141: DRAW.EXTMASK, by the rule's own address formulas. Which end of a byte is bit 0 is R10's, marked there as from
general knowledge (G1, log entry 11). -/
def Obligations.DrawExtmaskResult : Prop :=
  decode 0x10#32 = .ok .drawExtmask ∧ ∀ (s : State) (w h : Byte),
    s.platform.memRead s.regs.bmp.toNat = some w → s.platform.memRead (s.regs.bmp.toNat + 1) = some h →
    h.toNat % 8 = 0 →
    (∀ n < w.toNat * (h.toNat / 8),
      s.regs.bmp.toNat + 2 + s.regs.frm.toNat * (w.toNat * (h.toNat / 8)) + n < s.platform.romSize
        ∧ s.regs.msk.toNat + s.regs.mfrm.toNat * (w.toNat * (h.toNat / 8)) + n < s.platform.romSize) →
    drawsPixels .drawExtmask s w.toNat h.toNat fun i j dst =>
      if (s.platform.byteAt
            (s.regs.msk.toNat + s.regs.mfrm.toNat * (w.toNat * (h.toNat / 8)) + j / 8 * w.toNat + i)).getLsbD (j % 8) then
        (s.platform.byteAt
            (s.regs.bmp.toNat + 2 + s.regs.frm.toNat * (w.toNat * (h.toNat / 8)) + j / 8 * w.toNat + i)).getLsbD (j % 8)
      else dst

/-- R142: DRAW.PLUSMASK, by the rule's own address formulas. Which end of a byte is bit 0 is R10's, marked there as from
general knowledge (G1, log entry 11). That the image byte stands before the
mask byte is the reading R105 marks as its own (D22, log entry 12). -/
def Obligations.DrawPlusmaskResult : Prop :=
  decode 0x11#32 = .ok .drawPlusmask ∧ ∀ (s : State) (w h : Byte),
    s.platform.memRead s.regs.bmp.toNat = some w → s.platform.memRead (s.regs.bmp.toNat + 1) = some h →
    h.toNat % 8 = 0 →
    (∀ n < 2 * w.toNat * (h.toNat / 8),
      s.regs.bmp.toNat + 2 + s.regs.frm.toNat * (2 * w.toNat * (h.toNat / 8)) + n < s.platform.romSize) →
    drawsPixels .drawPlusmask s w.toNat h.toNat fun i j dst =>
      if (s.platform.byteAt
            (s.regs.bmp.toNat + 2 + s.regs.frm.toNat * (2 * w.toNat * (h.toNat / 8)) + j / 8 * (2 * w.toNat) + 2 * i
              + 1)).getLsbD (j % 8) then
        (s.platform.byteAt
            (s.regs.bmp.toNat + 2 + s.regs.frm.toNat * (2 * w.toNat * (h.toNat / 8)) + j / 8 * (2 * w.toNat)
              + 2 * i)).getLsbD (j % 8)
      else dst

/-- R143: DRAW.OVERWRITE, by the rule's own address formulas. Which end of a byte is bit 0 is R10's, marked there as from
general knowledge (G1, log entry 11). -/
def Obligations.DrawOverwriteResult : Prop :=
  decode 0x12#32 = .ok .drawOverwrite ∧ ∀ (s : State) (w h : Byte),
    s.platform.memRead s.regs.bmp.toNat = some w → s.platform.memRead (s.regs.bmp.toNat + 1) = some h →
    h.toNat % 8 = 0 →
    (∀ n < w.toNat * (h.toNat / 8),
      s.regs.bmp.toNat + 2 + s.regs.frm.toNat * (w.toNat * (h.toNat / 8)) + n < s.platform.romSize) →
    drawsPixels .drawOverwrite s w.toNat h.toNat fun i j _ =>
      (s.platform.byteAt
        (s.regs.bmp.toNat + 2 + s.regs.frm.toNat * (w.toNat * (h.toNat / 8)) + j / 8 * w.toNat + i)).getLsbD (j % 8)

/-- R144: DRAW.ERASE, by the rule's own address formulas. Which end of a byte is bit 0 is R10's, marked there as from
general knowledge (G1, log entry 11). -/
def Obligations.DrawEraseResult : Prop :=
  decode 0x13#32 = .ok .drawErase ∧ ∀ (s : State) (w h : Byte),
    s.platform.memRead s.regs.bmp.toNat = some w → s.platform.memRead (s.regs.bmp.toNat + 1) = some h →
    h.toNat % 8 = 0 →
    (∀ n < w.toNat * (h.toNat / 8),
      s.regs.bmp.toNat + 2 + s.regs.frm.toNat * (w.toNat * (h.toNat / 8)) + n < s.platform.romSize) →
    drawsPixels .drawErase s w.toNat h.toNat fun i j dst =>
      if (s.platform.byteAt
            (s.regs.bmp.toNat + 2 + s.regs.frm.toNat * (w.toNat * (h.toNat / 8)) + j / 8 * w.toNat + i)).getLsbD (j % 8) then
        false
      else dst

/-- R145: DRAW.SELFMASK, by the rule's own address formulas. Which end of a byte is bit 0 is R10's, marked there as from
general knowledge (G1, log entry 11). -/
def Obligations.DrawSelfmaskResult : Prop :=
  decode 0x14#32 = .ok .drawSelfmask ∧ ∀ (s : State) (w h : Byte),
    s.platform.memRead s.regs.bmp.toNat = some w → s.platform.memRead (s.regs.bmp.toNat + 1) = some h →
    h.toNat % 8 = 0 →
    (∀ n < w.toNat * (h.toNat / 8),
      s.regs.bmp.toNat + 2 + s.regs.frm.toNat * (w.toNat * (h.toNat / 8)) + n < s.platform.romSize) →
    drawsPixels .drawSelfmask s w.toNat h.toNat fun i j dst =>
      if (s.platform.byteAt
            (s.regs.bmp.toNat + 2 + s.regs.frm.toNat * (w.toNat * (h.toNat / 8)) + j / 8 * w.toNat + i)).getLsbD (j % 8) then
        true
      else dst

/-- R139: a DRAW has a defined result exactly when (a) the decoded height is a multiple of 8 and (b) every address is below
`ROM_SIZE`; nothing else is required. -/
def Obligations.DrawDefinedExactly : Prop :=
  ∀ (i : Instr) (mode : DrawMode) (s : State), i.drawMode = some mode →
    ((∃ t, exec i s = .next t) ↔ drawDefined mode s)

/-- Where the spec defines no result, a DRAW is refused by name (R109 with U1; R53 and R60 with U2): with both conditions
violated the height decides (the model's order, log entry 9). -/
def Obligations.UndefinedDrawsAreRefused : Prop :=
  ∀ (i : Instr) (mode : DrawMode) (s : State), i.drawMode = some mode →
    (s.platform.romSize ≤ s.regs.bmp.toNat + 1 → exec i s = .refused .beyondBitmapMemory)
      ∧ ∀ w h : Byte,
        s.platform.memRead s.regs.bmp.toNat = some w → s.platform.memRead (s.regs.bmp.toNat + 1) = some h →
          (h.toNat % 8 ≠ 0 → exec i s = .refused .heightNotMultipleOf8)
            ∧ (h.toNat % 8 = 0 →
              (∃ addr, frameAddress mode (drawOperands s.regs) w.toNat h.toNat addr ∧ s.platform.romSize ≤ addr) →
                exec i s = .refused .beyondBitmapMemory)

/-- R60: "whether a DRAW is defined does not depend on POSX or POSY". -/
def Obligations.DrawDefinednessIgnoresPosition : Prop :=
  ∀ (i : Instr) (s : State) (x y : Half), i.drawMode ≠ none →
    ((∃ t, exec i s = .next t)
      ↔ ∃ t, exec i { s with regs := { s.regs with posx := x, posy := y } } = .next t)

/-- R60, R53: in a defined DRAW the byte of every source pixel the mode fetches lies below `ROM_SIZE`. -/
def Obligations.DefinedDrawReadsOnlyBitmapMemory : Prop :=
  ∀ (mode : DrawMode) (s : State) (w h i j : Nat),
    drawDefined mode s → header s.platform s.regs.bmp.toNat = some (w, h) → i < w → j < h →
      (mode ≠ .plusMask → imgByteAddr (imageBase s.regs.bmp.toNat s.regs.frm.toNat w h) w i j < s.platform.romSize)
        ∧ (mode = .extMask →
          imgByteAddr (maskBase s.regs.msk.toNat s.regs.mfrm.toNat w h) w i j < s.platform.romSize)
        ∧ (mode = .plusMask →
          cmbImgByteAddr (combinedBase s.regs.bmp.toNat s.regs.frm.toNat w h) w i j < s.platform.romSize
            ∧ cmbMskByteAddr (combinedBase s.regs.bmp.toNat s.regs.frm.toNat w h) w i j < s.platform.romSize)

/-- R60: the largest frame address of a DRAW is below the bound the rule gives, which needs 33 bits: no address wraps. -/
def Obligations.FrameAddressesFitThirtyThreeBits : Prop :=
  ∀ (mode : DrawMode) (g : OperandRegs) (w h : Byte) (addr : Nat),
    frameAddress mode (drawOperands g) w.toNat h.toNat addr →
      addr < 2 ^ 32 + 2 + 255 * 2 * 255 * 31 + 2 * 255 * 31 ∧ addr < 2 ^ 33

/-- R150: a DRAW changes no pixel outside its rectangle, no operand register, not HIT, and no bitmap memory. -/
def Obligations.DrawFrame : Prop :=
  ∀ (i : Instr) (s t : State) (w h : Nat), i.drawMode ≠ none →
    header s.platform s.regs.bmp.toNat = some (w, h) → exec i s = .next t →
      t = { s with fb := t.fb }
        ∧ ∀ px py : Nat, px < WIDTH → py < HEIGHT →
          ¬ (s.regs.posx.toInt ≤ px ∧ (px : Int) < s.regs.posx.toInt + w
              ∧ s.regs.posy.toInt ≤ py ∧ (py : Int) < s.regs.posy.toInt + h) →
            t.pixel px py = s.pixel px py

/-- R110, R147 (a): a bitmap of width 0 or height 0 is drawn, in every mode, at every position and frame, with no effect. -/
def Obligations.EmptyBitmapDrawsNothing : Prop :=
  ∀ (i : Instr) (s : State) (w h : Byte), i.drawMode ≠ none →
    s.platform.memRead s.regs.bmp.toNat = some w → s.platform.memRead (s.regs.bmp.toNat + 1) = some h →
    h.toNat % 8 = 0 → w = 0 ∨ h = 0 → exec i s = .next s

/-- R147 (b): a defined DRAW wholly outside the buffer leaves the state unchanged. -/
def Obligations.DrawOutsideChangesNothing : Prop :=
  ∀ (i : Instr) (mode : DrawMode) (s : State) (w h : Nat), i.drawMode = some mode → drawDefined mode s →
    header s.platform s.regs.bmp.toNat = some (w, h) →
    (128 ≤ s.regs.posx.toInt ∨ s.regs.posx.toInt + w ≤ 0 ∨ 64 ≤ s.regs.posy.toInt ∨ s.regs.posy.toInt + h ≤ 0) →
      exec i s = .next s

/-- R149 (1), R144, R145: a DRAW applied twice is the same as once; it holds of all five modes. -/
def Obligations.DrawTwiceIsDrawOnce : Prop :=
  ∀ (i : Instr) (s t : State), i.drawMode ≠ none → exec i s = .next t → exec i t = .next t

/-- R149 (2), R144: Self-Masked only sets, Erase only clears, and Erase after Self-Masked with the same operands leaves
0 where the source bit is 1 and the first buffer's pixel elsewhere. -/
def Obligations.SelfMaskThenErase : Prop :=
  (∀ s t : State, exec .drawErase s = .next t →
      ∀ px py : Nat, px < WIDTH → py < HEIGHT → t.pixel px py = true → s.pixel px py = true)
    ∧ ∀ (s t : State) (w h : Nat), header s.platform s.regs.bmp.toNat = some (w, h) → exec .drawSelfmask s = .next t →
      (∀ px py : Nat, px < WIDTH → py < HEIGHT → s.pixel px py = true → t.pixel px py = true)
        ∧ ∃ u, exec .drawErase t = .next u
          ∧ ∀ px py : Nat, px < WIDTH → py < HEIGHT →
            (∀ k j : Nat, k < w → j < h → (px : Int) = s.regs.posx.toInt + k → (py : Int) = s.regs.posy.toInt + j →
                u.pixel px py = (!decodedPixel s.platform s.regs.bmp.toNat s.regs.frm.toNat w h k j && s.pixel px py))
              ∧ (¬ (s.regs.posx.toInt ≤ px ∧ (px : Int) < s.regs.posx.toInt + w
                    ∧ s.regs.posy.toInt ≤ py ∧ (py : Int) < s.regs.posy.toInt + h) →
                u.pixel px py = s.pixel px py)

/-- R149 (3): "External-Mask draw with an all-1s mask behaves identically to Overwrite; with an all-0s mask it is a no-op on
the buffer." -/
def Obligations.ExtmaskWithUniformMask : Prop :=
  ∀ (s : State) (w h : Nat), header s.platform s.regs.bmp.toNat = some (w, h) →
    (∀ n < w * (h / 8), s.regs.msk.toNat + s.regs.mfrm.toNat * (w * (h / 8)) + n < s.platform.romSize) →
    ((∀ n < w * (h / 8), s.platform.byteAt (s.regs.msk.toNat + s.regs.mfrm.toNat * (w * (h / 8)) + n) = 0xFF#8) →
        exec .drawExtmask s = exec .drawOverwrite s)
      ∧ ((∀ n < w * (h / 8), s.platform.byteAt (s.regs.msk.toNat + s.regs.mfrm.toNat * (w * (h / 8)) + n) = 0x00#8) →
        drawDefined .extMask s → exec .drawExtmask s = .next s)

/-- R141's corner case: with `mask = bitmap + 2` and `maskFrame = frame` the image is its own mask, which gives the
Self-Masked result, refusals included. -/
def Obligations.ImageAsItsOwnMask : Prop :=
  ∀ s : State, s.regs.msk.toNat = s.regs.bmp.toNat + 2 → s.regs.mfrm = s.regs.frm →
    exec .drawExtmask s = exec .drawSelfmask s

/-- R149 (5), R111: after an Overwrite at (0, 0) of a bitmap that fits, scan-out reads the decoded pixel matrix, and every
pixel outside it is what it was. Bit 0 is the least significant
(G1, log entry 11). -/
def Obligations.OverwriteRoundTrip : Prop :=
  ∀ (s t : State) (w h : Nat), s.regs.posx = 0 → s.regs.posy = 0 →
    header s.platform s.regs.bmp.toNat = some (w, h) → w ≤ WIDTH → h ≤ HEIGHT → exec .drawOverwrite s = .next t →
      ∀ n : PixelIndex,
        (n.toNat % 128 < w ∧ n.toNat / 128 < h →
          fbRead t.fb n
            = (s.platform.byteAt
                (s.regs.bmp.toNat + 2 + s.regs.frm.toNat * (w * (h / 8)) + n.toNat / 128 / 8 * w
                  + n.toNat % 128)).getLsbD (n.toNat / 128 % 8))
          ∧ (¬ (n.toNat % 128 < w ∧ n.toNat / 128 < h) → fbRead t.fb n = fbRead s.fb n)

/-- R62: "The result of a DRAW is the same for every iteration order, and equals the simultaneous update" of R146. -/
def Obligations.DrawResultIsOrderFree : Prop :=
  ∀ (mode : DrawMode) (p : Platform) (o : DrawOperands) (w h : Nat) (fb : FrameBuffer) (l : List (Nat × Nat)),
    l.Perm (drawOrder w h) →
      l.foldl (drawPixel mode p o w h) fb = blit mode p o w h fb
        ∧ ∀ px py : Nat, px < WIDTH → py < HEIGHT →
          (∀ i j : Nat, i < w → j < h → (i : Int) = px - o.x → (j : Int) = py - o.y →
              FrameBuffer.get (l.foldl (drawPixel mode p o w h) fb) px py
                = combine mode (srcImg mode p o w h i j) (srcMsk mode p o w h i j) (FrameBuffer.get fb px py))
            ∧ (¬ (0 ≤ px - o.x ∧ px - o.x < w ∧ 0 ≤ py - o.y ∧ py - o.y < h) →
              FrameBuffer.get (l.foldl (drawPixel mode p o w h) fb) px py = FrameBuffer.get fb px py)

/-- R151: two Self-Masked draws commute, two Erase draws commute, whatever their operands; Overwrite draws over the same
pixels do not. The later draw composites over the buffer the earlier one left. -/
def Obligations.DrawComposition : Prop :=
  (∀ i ∈ [Instr.drawSelfmask, Instr.drawErase], ∀ (s t u t' u' : State) (g g' : OperandRegs),
      exec i { s with regs := g } = .next t → exec i { t with regs := g' } = .next u →
      exec i { s with regs := g' } = .next t' → exec i { t' with regs := g } = .next u' →
        u.fb = u'.fb)
    ∧ ∃ (s t u t' u' : State) (g g' : OperandRegs),
      exec .drawOverwrite { s with regs := g } = .next t ∧ exec .drawOverwrite { t with regs := g' } = .next u
        ∧ exec .drawOverwrite { s with regs := g' } = .next t' ∧ exec .drawOverwrite { t' with regs := g } = .next u'
        ∧ u.fb ≠ u'.fb

/-- R107: the cursor that advances by the band stride after every 8th row reads exactly the bytes of R104 and R105. -/
def Obligations.BandCursorReadsTheSameBytes : Prop :=
  ∀ base w k j : Nat,
    bandCursor base w j + k = imgByteAddr base w k j
      ∧ bandCursor base (2 * w) j + 2 * k = cmbImgByteAddr base w k j
      ∧ bandCursor base (2 * w) j + 2 * k + 1 = cmbMskByteAddr base w k j

/-- R114: a frame below the frame count lies inside the extent of its bitmap, after the header. -/
def Obligations.FramesLieInsideTheExtent : Prop :=
  ∀ addr f n w h k : Nat, f < n →
    (k < frameByteSize w h →
      addr + 2 ≤ imageBase addr f w h + k ∧ imageBase addr f w h + k < addr + bitmapExtent n w h
        ∧ addr ≤ maskBase addr f w h + k ∧ maskBase addr f w h + k < addr + maskExtent n w h)
      ∧ (k < frameByteSizeCombined w h →
        addr + 2 ≤ combinedBase addr f w h + k ∧ combinedBase addr f w h + k < addr + combinedExtent n w h)

/-- R196, R114, R139: a DRAW whose caller keeps the preconditions completes. -/
def Obligations.DrawUnderPreconditionsCompletes : Prop :=
  ∀ (i : Instr) (mode : DrawMode) (s : State) (n m w h : Nat), i.drawMode = some mode →
    callerPreconditions mode s n m w h → ∃ t, exec i s = .next t

/-! ### Collision -/

/-- R161 with R86: COLLIDE writes HIT with the comparison of R160 on the two rectangles of the registers, changes nothing
else, and always completes. -/
def Obligations.CollideResult : Prop :=
  decode 0x40#32 = .ok .collide ∧ ∀ s : State, exec .collide s = .next { s with
    hit := decide (s.regs.r1w.toNat > 0 ∧ s.regs.r1h.toNat > 0 ∧ s.regs.r2w.toNat > 0 ∧ s.regs.r2h.toNat > 0
      ∧ s.regs.r2x.toInt < s.regs.r1x.toInt + s.regs.r1w.toNat
      ∧ s.regs.r2x.toInt + s.regs.r2w.toNat > s.regs.r1x.toInt
      ∧ s.regs.r2y.toInt < s.regs.r1y.toInt + s.regs.r1h.toNat
      ∧ s.regs.r2y.toInt + s.regs.r2h.toNat > s.regs.r1y.toInt) }

/-- R160: `collide` is the comparison it prints; equivalently the rectangles share a pixel; equivalently the intervals
meet on both axes. The four conjuncts on zero sizes are R160's own, resolved by 90_conflicts.md C1 (log entry
18). -/
def Obligations.CollideMeansASharedPixel : Prop :=
  ∀ r1 r2 : Rect,
    (collide r1 r2 = true ↔
        r1.w > 0 ∧ r1.h > 0 ∧ r2.w > 0 ∧ r2.h > 0 ∧ r2.x < r1.x + r1.w ∧ r2.x + r2.w > r1.x
          ∧ r2.y < r1.y + r1.h ∧ r2.y + r2.h > r1.y)
      ∧ (collide r1 r2 = true ↔
        ∃ px py : Int, (r1.x ≤ px ∧ px < r1.x + r1.w ∧ r1.y ≤ py ∧ py < r1.y + r1.h)
          ∧ r2.x ≤ px ∧ px < r2.x + r2.w ∧ r2.y ≤ py ∧ py < r2.y + r2.h)
      ∧ (collide r1 r2 = true ↔
        max r1.x r2.x < min (r1.x + r1.w) (r2.x + r2.w) ∧ max r1.y r2.y < min (r1.y + r1.h) (r2.y + r2.h))

/-- R162, cases (a) to (j). -/
def Obligations.CollideCornerCases : Prop :=
  collide ⟨0, 0, 10, 10⟩ ⟨10, 0, 10, 10⟩ = false ∧ collide ⟨0, 0, 10, 10⟩ ⟨10, 10, 5, 5⟩ = false
    ∧ collide ⟨0, 0, 10, 10⟩ ⟨20, 20, 5, 5⟩ = false ∧ collide ⟨0, 0, 10, 10⟩ ⟨5, 10, 10, 10⟩ = false
    ∧ collide ⟨0, 0, 10, 10⟩ ⟨2, 2, 3, 3⟩ = true
    ∧ (∀ r1 r2 : Rect, r1.w = 0 ∨ r1.h = 0 ∨ r2.w = 0 ∨ r2.h = 0 → collide r1 r2 = false)
    ∧ (∀ r1 r2 : Rect, collide r1 r2 = collide r2 r1)
    ∧ (∀ r : Rect, r.w ≠ 0 → r.h ≠ 0 → collide r r = true)
    ∧ collide ⟨-5, -5, 10, 10⟩ ⟨0, 0, 1, 1⟩ = true ∧ collide ⟨-5, -5, 5, 5⟩ ⟨0, 0, 1, 1⟩ = false
    ∧ (∀ (r1 r2 : Rect) (dx dy : Int),
        collide { r1 with x := r1.x + dx, y := r1.y + dy } { r2 with x := r2.x + dx, y := r2.y + dy } = collide r1 r2)
    ∧ collide ⟨32767, 0, 65535, 1⟩ ⟨32767, 0, 1, 1⟩ = true

/-- R161: the host obtains the result of a COLLIDE with a read of STATUS, in bit 0. -/
def Obligations.StatusReadAfterCollide : Prop :=
  ∀ (s : State) (d : Data) (rest : List Transaction), d.toNat % 256 = 0x40 →
    s.pending = .regWrite 0x00#6 d :: .regRead 0x01#6 :: rest →
      Sys2Proof.core.run 2 s = .next { s with
        pending := rest
        hit := collide (rect1 s.regs) (rect2 s.regs)
        replies := .data (if collide (rect1 s.regs) (rect2 s.regs) = true then 1 else 0) :: s.replies }

/-! ### Whole-machine rules -/

/-- R38: HIT is the result of the most recent COLLIDE, written only by it and by reset; it is bit 0 of what STATUS reads,
the other bits read 0; a write to 0x01 changes nothing. -/
def Obligations.StatusRegister : Prop :=
  (∀ s t : State, step s = .next t → t.hit ≠ s.hit →
      ∃ d rest, s.pending = .regWrite 0x00#6 d :: rest ∧ decode d = .ok .collide
        ∧ t.hit = collide (rect1 s.regs) (rect2 s.regs))
    ∧ (∀ (s : State) (d : Data) (rest : List Transaction), s.pending = .regWrite 0x00#6 d :: rest →
        decode d = .ok .collide →
          ∃ t, step s = .next t ∧ t.hit = collide (rect1 s.regs) (rect2 s.regs))
    ∧ (∀ (s : State) (d : Data) (rest : List Transaction), s.pending = .regWrite 0x01#6 d :: rest →
        step s = .next { s with pending := rest })
    ∧ (∀ (s : State) (rest : List Transaction), s.pending = .regRead 0x01#6 :: rest →
        ∃ v : Data, step s = .next { s with pending := rest, replies := .data v :: s.replies }
          ∧ v.getLsbD 0 = s.hit ∧ ∀ k, 1 ≤ k → v.getLsbD k = false)
    ∧ ∀ (p : Platform) (fb : FrameBuffer), (State.powerOn p fb).hit = false

/-- R23: the frame buffer changes only in a step whose transaction is a CMD write of a DRAW, a PIXEL command or FB.CLEAR;
COLLIDE never writes it. -/
def Obligations.FrameBufferWrittenOnlyByItsCommands : Prop :=
  ∀ s t : State, step s = .next t → t.fb ≠ s.fb →
    ∃ d rest i, s.pending = .regWrite 0x00#6 d :: rest ∧ decode d = .ok i
      ∧ i ∈ [Instr.drawExtmask, Instr.drawPlusmask, Instr.drawOverwrite, Instr.drawErase, Instr.drawSelfmask,
        Instr.pixelClr, Instr.pixelSet, Instr.fbClear]

/-- R25: an operand register changes only in a step whose transaction is a write to its own address. -/
def Obligations.OperandRegisterWrittenOnlyByItsAddress : Prop :=
  ∀ (s t : State) (r : OperandReg), step s = .next t → t.regs.read r ≠ s.regs.read r →
    ∃ a d rest, s.pending = .regWrite a d :: rest ∧ decodeRegister a = some (.operand r)

/-- R44, the written columns: no command writes an operand register or bitmap memory, COLLIDE writes HIT and no pixel, every
other command leaves HIT; none takes or answers a transaction of the host. -/
def Obligations.CommandsWriteOnlyTheirState : Prop :=
  ∀ (i : Instr) (s t : State), exec i s = .next t →
    t.regs = s.regs ∧ t.platform = s.platform ∧ t.pending = s.pending ∧ t.replies = s.replies
      ∧ (i = .collide → t.fb = s.fb) ∧ (i ≠ .collide → t.hit = s.hit)

/-- R44, the read columns (with R29, R30, R163): two states that agree on bitmap memory, the frame buffer and the operand
registers the command reads give the same pixels, the same HIT from COLLIDE, or the same refusal, whatever else
they hold. -/
def Obligations.CommandsReadOnlyTheirOperands : Prop :=
  ∀ (i : Instr) (s s' : State), s.platform = s'.platform → s.fb = s'.fb →
    (∀ r ∈ operandsRead i, s.regs.read r = s'.regs.read r) →
      (∀ t, exec i s = .next t →
          ∃ t', exec i s' = .next t' ∧ t'.fb = t.fb ∧ (i = .collide → t'.hit = t.hit))
        ∧ ∀ r, exec i s = .refused r → exec i s' = .refused r

/-- R86: the operands are formed from the registers, positions sign-extended and the rest zero-extended, in the ranges the
rule gives. -/
def Obligations.OperandAssembly : Prop :=
  ∀ s : State, s.Inv →
    drawOperands s.regs
        = ⟨s.regs.posx.toInt, s.regs.posy.toInt, s.regs.bmp.toNat, s.regs.frm.toNat, s.regs.msk.toNat,
          s.regs.mfrm.toNat⟩
      ∧ rect1 s.regs = ⟨s.regs.r1x.toInt, s.regs.r1y.toInt, s.regs.r1w.toNat, s.regs.r1h.toNat⟩
      ∧ rect2 s.regs = ⟨s.regs.r2x.toInt, s.regs.r2y.toInt, s.regs.r2w.toNat, s.regs.r2h.toNat⟩
      ∧ (∀ v ∈ [(drawOperands s.regs).x, (drawOperands s.regs).y, (rect1 s.regs).x, (rect1 s.regs).y,
            (rect2 s.regs).x, (rect2 s.regs).y], -32768 ≤ v ∧ v ≤ 32767)
      ∧ (drawOperands s.regs).bitmap < 2 ^ s.platform.aw ∧ (drawOperands s.regs).mask < 2 ^ s.platform.aw
      ∧ (drawOperands s.regs).frame < 256 ∧ (drawOperands s.regs).maskFrame < 256
      ∧ ∀ v ∈ [(rect1 s.regs).w, (rect1 s.regs).h, (rect2 s.regs).w, (rect2 s.regs).h], v < 65536

/-! ### Pseudo-instructions and presentation -/

/-- R91, the five `draw.*`: the expansion runs the command on registers that hold the call's operands, and keeps every
other register, pixel and flag up to then. -/
def Obligations.PseudoDrawIsTheCall : Prop :=
  ∀ (s : State) (x y : Int) (bitmap frame mask maskFrame : Nat) (rest : List Transaction), s.Inv →
    (∀ c ∈ [(Pseudo.drawPlusmask x y bitmap frame, Instr.drawPlusmask),
          (Pseudo.drawOverwrite x y bitmap frame, Instr.drawOverwrite),
          (Pseudo.drawErase x y bitmap frame, Instr.drawErase),
          (Pseudo.drawSelfmask x y bitmap frame, Instr.drawSelfmask)],
        c.1.wf s.platform.aw = true → s.pending = c.1.expand.map Line.assemble ++ rest →
          ∃ g : OperandRegs,
            drawOperands g = ⟨x, y, bitmap, frame, s.regs.msk.toNat, s.regs.mfrm.toNat⟩
              ∧ rect1 g = rect1 s.regs ∧ rect2 g = rect2 s.regs
              ∧ Sys2Proof.core.run 5 s = exec c.2 { s with regs := g, pending := rest })
      ∧ ((Pseudo.drawExtmask x y bitmap frame mask maskFrame).wf s.platform.aw = true →
        s.pending = (Pseudo.drawExtmask x y bitmap frame mask maskFrame).expand.map Line.assemble ++ rest →
          ∃ g : OperandRegs,
            drawOperands g = ⟨x, y, bitmap, frame, mask, maskFrame⟩
              ∧ rect1 g = rect1 s.regs ∧ rect2 g = rect2 s.regs
              ∧ Sys2Proof.core.run 7 s = exec .drawExtmask { s with regs := g, pending := rest })

/-- R91, `pixel x, y, v` and `clear`: the expansion writes the one pixel if it is in bounds, or clears the buffer. -/
def Obligations.PseudoPixelAndClear : Prop :=
  ∀ (s : State) (x y : Int) (v : Bool) (rest : List Transaction),
    ((Pseudo.pixel x y v).wf s.platform.aw = true →
      s.pending = (Pseudo.pixel x y v).expand.map Line.assemble ++ rest →
        ∃ t, Sys2Proof.core.run 3 s = .next t ∧ t.fb = fbWrite s.fb x y v ∧ t.hit = s.hit ∧ t.pending = rest
          ∧ sext16 t.regs.posx = x ∧ sext16 t.regs.posy = y)
      ∧ (s.pending = Pseudo.clear.expand.map Line.assemble ++ rest →
        Sys2Proof.core.run 1 s = .next { s with fb := fbCleared, pending := rest })

/-- R91, `collide`: the expansion's last read returns `collide` of the two rectangles of the call. -/
def Obligations.PseudoCollideIsTheCall : Prop :=
  ∀ (s : State) (x1 y1 x2 y2 : Int) (w1 h1 w2 h2 : Nat) (rest : List Transaction),
    (Pseudo.collide x1 y1 w1 h1 x2 y2 w2 h2).wf s.platform.aw = true →
    s.pending = (Pseudo.collide x1 y1 w1 h1 x2 y2 w2 h2).expand.map Line.assemble ++ rest →
      ∃ t, Sys2Proof.core.run 10 s = .next t
        ∧ t.replies = .data (if collide ⟨x1, y1, w1, h1⟩ ⟨x2, y2, w2, h2⟩ = true then 1 else 0) :: s.replies
        ∧ t.fb = s.fb ∧ t.pending = rest ∧ drawOperands t.regs = drawOperands s.regs

/-- R130: the numbers of the dump: 128, 64, 255, then `255 * FbRead(n)` for n = 0 .. 8191. -/
def Obligations.DumpNumbers : Prop :=
  ∀ fb : FrameBuffer,
    (dumpNumbers fb).length = 3 + 8192 ∧ (dumpNumbers fb).take 3 = [128, 64, 255]
      ∧ ∀ n : PixelIndex, (dumpNumbers fb)[3 + n.toNat]? = some (255 * (fbRead fb n).toNat)
end

