-- ==== Sys2Proof/Laws/FrameBuffer.lean ====
section
/-! SUPPORT. The frame buffer: what a pixel reads as after each operation, and that the pixels determine the buffer. -/

namespace Sys2Proof

theorem pixelNumber_lt {x y : Nat} (hx : x < WIDTH) (hy : y < HEIGHT) : pixelNumber x y < WIDTH * HEIGHT := by
  simp only [pixelNumber, WIDTH, HEIGHT] at *
  omega

theorem pixelNumber_inj {x y x' y' : Nat} (hx : x < WIDTH) (hx' : x' < WIDTH)
    (h : pixelNumber x y = pixelNumber x' y') : x = x' ∧ y = y' := by
  simp only [pixelNumber, WIDTH] at *
  omega

/-- The bounds in numerals (R121). -/
theorem inBounds_iff {x y : Int} : inBounds x y ↔ 0 ≤ x ∧ x < 128 ∧ 0 ≤ y ∧ y < 64 := Iff.rfl

/-- After a pixel is put, that pixel reads as the bit put and every other pixel as before. -/
theorem FrameBuffer.get_put (fb : FrameBuffer) {x y px py : Nat} (b : Bool) (hx : x < WIDTH) (hpx : px < WIDTH)
    (hpy : py < HEIGHT) :
    FrameBuffer.get (FrameBuffer.put fb x y b) px py = if px = x ∧ py = y then b else FrameBuffer.get fb px py := by
  have hn := pixelNumber_lt hpx hpy
  have key : pixelNumber x y = pixelNumber px py ↔ px = x ∧ py = y :=
    ⟨fun h => (pixelNumber_inj hx hpx h).imp Eq.symm Eq.symm, by rintro ⟨rfl, rfl⟩; rfl⟩
  unfold FrameBuffer.get FrameBuffer.put
  by_cases h : px = x ∧ py = y
  · cases b <;> simp [key.2 h, hn, h]
  · have hne := mt key.1 h
    cases b <;> simp [h, hn, Ne.symm hne]

/-- `FbWrite` (R121): the named pixel, if in bounds, reads as the bit written; every other pixel reads as before. -/
theorem get_fbWrite (fb : FrameBuffer) (x y : Int) (b : Bool) {px py : Nat} (hpx : px < WIDTH) (hpy : py < HEIGHT) :
    FrameBuffer.get (fbWrite fb x y b) px py
      = if (px : Int) = x ∧ (py : Int) = y then b else FrameBuffer.get fb px py := by
  unfold fbWrite
  split
  · rename_i h
    rw [FrameBuffer.get_put fb b (by omega) hpx hpy]
    congr 1
    simp only [eq_iff_iff]
    omega
  · rename_i h
    rw [if_neg]
    rintro ⟨rfl, rfl⟩
    exact h ⟨by omega, by omega, by omega, by omega⟩

/-- `FbWrite` out of bounds changes no pixel anywhere (R121). -/
theorem fbWrite_outside (fb : FrameBuffer) {x y : Int} (b : Bool) (h : ¬ inBounds x y) : fbWrite fb x y b = fb :=
  if_neg h

/-- The pixels determine the buffer. -/
theorem FrameBuffer.ext {fb fb' : FrameBuffer}
    (h : ∀ px py, px < WIDTH → py < HEIGHT → FrameBuffer.get fb px py = FrameBuffer.get fb' px py) : fb = fb' := by
  refine BitVec.eq_of_getLsbD_eq fun i hi => ?_
  have hi : i < 8192 := hi
  have := h (i % 128) (i / 128) (Nat.mod_lt _ (by decide)) (show i / 128 < 64 by omega)
  simpa only [FrameBuffer.get, pixelNumber, WIDTH, Nat.div_add_mod'] using this

@[simp] theorem get_fbCleared (px py : Nat) : FrameBuffer.get fbCleared px py = false := by
  simp [FrameBuffer.get, fbCleared]

/-- `FbRead` at the linear index of a pixel is that pixel (R129). -/
theorem fbRead_pixelNumber (fb : FrameBuffer) {x y : Nat} (hx : x < WIDTH) (n : PixelIndex)
    (hn : n.toNat = pixelNumber x y) : fbRead fb n = FrameBuffer.get fb x y := by
  have h1 : n.toNat % WIDTH = x := by simp only [hn, pixelNumber, WIDTH] at *; omega
  have h2 : n.toNat / WIDTH = y := by simp only [hn, pixelNumber, WIDTH] at *; omega
  rw [fbRead, h1, h2]

end Sys2Proof
end

