-- ==== Sys2Proof/Laws/Memory.lean ====
section
/-! SUPPORT. Bitmap memory: read after store, and the canonical form that every memory operation keeps. -/

namespace Sys2Proof

@[simp] theorem Memory.read_nil (addr : Nat) : Memory.read [] addr = Config.unlistedByte := rfl

theorem Memory.read_cons (c : Host.Cell) (m : Memory) (addr : Nat) :
    Memory.read (c :: m) addr = if c.1 = addr then c.2 else Memory.read m addr := rfl

/-- An address below every listed one is unlisted. -/
theorem Memory.read_of_lt (m : Memory) (addr : Nat) (h : ∀ c ∈ m, addr < c.1) :
    Memory.read m addr = Config.unlistedByte := by
  induction m with
  | nil => rfl
  | cons c m ih =>
    have hc := h c (by simp)
    rw [Memory.read_cons, if_neg (by omega), ih fun d hd => h d (by simp [hd])]

theorem Memory.wf_cons (c : Host.Cell) (m : Memory) :
    Memory.wf (c :: m) ↔ (∀ d ∈ m, c.1 < d.1) ∧ c.2 ≠ Config.unlistedByte ∧ Memory.wf m := by
  simp only [Memory.wf, List.pairwise_cons, List.forall_mem_cons]
  tauto

/-- Reading after a store gives the stored byte at its address and the old byte everywhere else. -/
theorem Memory.read_store (m : Memory) (hm : Memory.wf m) (addr x : Nat) (v : Byte) :
    Memory.read (Memory.store m addr v) x = if x = addr then v else Memory.read m x := by
  induction m with
  | nil =>
    by_cases hv : v = Config.unlistedByte <;> simp [Memory.store, hv, Memory.read_cons, eq_comm]
  | cons c m ih =>
    obtain ⟨a, b⟩ := c
    obtain ⟨hlt, hb, hwf⟩ := (Memory.wf_cons _ _).1 hm
    have ih := ih hwf
    have below : ∀ y ≤ a, Memory.read m y = Config.unlistedByte := fun y hy =>
      Memory.read_of_lt m y fun d hd => lt_of_le_of_lt hy (hlt d hd)
    simp only [Memory.store]
    split
    · rename_i h
      by_cases hx : x = addr
      · subst hx
        by_cases hv : v = Config.unlistedByte
        · simp [hv, Memory.read_cons, below x (by omega), show a ≠ x by omega]
        · simp [hv, Memory.read_cons]
      · by_cases hv : v = Config.unlistedByte <;> simp [hv, hx, Ne.symm hx, Memory.read_cons]
    · split
      · rename_i h' h
        subst h
        by_cases hx : x = addr
        · subst hx
          by_cases hv : v = Config.unlistedByte <;> simp [hv, Memory.read_cons, below x (le_refl _)]
        · by_cases hv : v = Config.unlistedByte <;> simp [hv, hx, Ne.symm hx, Memory.read_cons]
      · rename_i h h'
        rw [Memory.read_cons, Memory.read_cons, ih]
        by_cases hx : x = addr
        · subst hx
          simp [show a ≠ x by omega]
        · simp [hx]

/-- The addresses a store lists are the old ones and perhaps its own. -/
theorem Memory.mem_store (m : Memory) (addr : Nat) (v : Byte) (c : Host.Cell) (h : c ∈ Memory.store m addr v) :
    c ∈ m ∨ (c = (addr, v) ∧ v ≠ Config.unlistedByte) := by
  induction m with
  | nil =>
    by_cases hv : v = Config.unlistedByte
    · simp [Memory.store, hv] at h
    · simp [Memory.store, hv] at h
      exact .inr ⟨h, hv⟩
  | cons d m ih =>
    obtain ⟨a, b⟩ := d
    simp only [Memory.store] at h
    split at h
    · split at h
      · exact .inl h
      · rcases List.mem_cons.1 h with h | h
        · exact .inr ⟨h, ‹_›⟩
        · exact .inl h
    · split at h
      · split at h
        · exact .inl (List.mem_cons_of_mem _ h)
        · rcases List.mem_cons.1 h with h | h
          · exact .inr ⟨h, ‹_›⟩
          · exact .inl (List.mem_cons_of_mem _ h)
      · rcases List.mem_cons.1 h with h | h
        · exact .inl (by simp [h])
        · exact (ih h).imp (List.mem_cons_of_mem _) id

/-- A store keeps the canonical form. -/
theorem Memory.wf_store (m : Memory) (hm : Memory.wf m) (addr : Nat) (v : Byte) : Memory.wf (Memory.store m addr v) := by
  induction m with
  | nil => by_cases hv : v = Config.unlistedByte <;> simp [Memory.store, Memory.wf, hv]
  | cons c m ih =>
    obtain ⟨a, b⟩ := c
    obtain ⟨hlt, hb, hwf⟩ := (Memory.wf_cons _ _).1 hm
    have ih := ih hwf
    simp only [Memory.store]
    split
    · rename_i h
      split
      · exact hm
      · refine (Memory.wf_cons _ _).2 ⟨?_, ‹_›, hm⟩
        rintro d hd
        rcases List.mem_cons.1 hd with rfl | hd
        · exact h
        · exact h.trans (hlt d hd)
    · split
      · rename_i h' h
        subst h
        split
        · exact hwf
        · exact (Memory.wf_cons _ _).2 ⟨hlt, ‹_›, hwf⟩
      · refine (Memory.wf_cons _ _).2 ⟨?_, hb, ih⟩
        intro d hd
        rcases Memory.mem_store m addr v d hd with hd | ⟨rfl, -⟩
        · exact hlt d hd
        · show a < addr
          omega

/-- Laying bytes down keeps the canonical form. -/
theorem Memory.wf_load (vs : List Byte) (m : Memory) (hm : Memory.wf m) (addr : Nat) :
    Memory.wf (Memory.load m addr vs) := by
  induction vs generalizing m addr with
  | nil => exact hm
  | cons v vs ih => exact ih _ (Memory.wf_store m hm addr v) _

/-- The canonical form is canonical: memories that read alike are equal data. -/
theorem Memory.eq_of_read_eq (m m' : Memory) (hm : Memory.wf m) (hm' : Memory.wf m')
    (h : ∀ addr, Memory.read m addr = Memory.read m' addr) : m = m' := by
  induction m generalizing m' with
  | nil =>
    cases m' with
    | nil => rfl
    | cons c m' =>
      have := h c.1
      rw [Memory.read_cons, if_pos rfl] at this
      exact absurd this.symm ((Memory.wf_cons _ _).1 hm').2.1
  | cons c m ih =>
    obtain ⟨hlt, hb, hwf⟩ := (Memory.wf_cons _ _).1 hm
    cases m' with
    | nil =>
      have := h c.1
      rw [Memory.read_cons, if_pos rfl] at this
      exact absurd this hb
    | cons c' m' =>
      obtain ⟨hlt', hb', hwf'⟩ := (Memory.wf_cons _ _).1 hm'
      have key : ∀ {d d' : Host.Cell} {n n' : Memory}, (∀ e ∈ n', d'.1 < e.1) → d.2 ≠ Config.unlistedByte →
          Memory.read (d :: n) d.1 = Memory.read (d' :: n') d.1 → ¬ d.1 < d'.1 := by
        intro d d' n n' hn' hd he hl
        rw [Memory.read_cons, if_pos rfl, Memory.read_cons, if_neg (by omega),
          Memory.read_of_lt n' d.1 fun e he => hl.trans (hn' e he)] at he
        exact hd he
      have e1 : c.1 = c'.1 :=
        le_antisymm (not_lt.1 (key hlt hb' (h c'.1).symm)) (not_lt.1 (key hlt' hb (h c.1)))
      have e2 : c.2 = c'.2 := by
        have := h c.1
        rwa [Memory.read_cons, if_pos rfl, Memory.read_cons, if_pos e1.symm] at this
      have e3 : m = m' := by
        refine ih m' hwf hwf' fun addr => ?_
        by_cases hx : c.1 < addr
        · have := h addr
          rwa [Memory.read_cons, if_neg (by omega), Memory.read_cons, if_neg (by omega)] at this
        · rw [Memory.read_of_lt m addr fun d hd => lt_of_le_of_lt (not_lt.1 hx) (hlt d hd),
            Memory.read_of_lt m' addr fun d hd => lt_of_le_of_lt (not_lt.1 hx) (e1 ▸ hlt' d hd)]
      rw [Prod.ext e1 e2, e3]

/-- `MemRead` answers exactly below `ROM_SIZE` (R53). -/
theorem Platform.memRead_eq_some (p : Platform) (addr : Nat) (b : Byte) :
    p.memRead addr = some b ↔ addr < p.romSize ∧ p.byteAt addr = b := by
  simp [Platform.memRead]

theorem Platform.memRead_eq_none (p : Platform) (addr : Nat) : p.memRead addr = none ↔ p.romSize ≤ addr := by
  simp [Platform.memRead]

/-- The reset platform is well formed. -/
theorem Config.resetPlatform_wf : Config.resetPlatform.wf := by decide

end Sys2Proof
end

