-- ==== Sys2Proof/Laws/State.lean ====
section
/-! SUPPORT. One lemma per field per update of State, so that no proof unfolds a record update. -/

namespace Sys2Proof.Machine

@[simp] theorem State.setFb_fb (s : State) (fb : FrameBuffer) : (s.setFb fb).fb = fb := rfl
@[simp] theorem State.setFb_regs (s : State) (fb : FrameBuffer) : (s.setFb fb).regs = s.regs := rfl
@[simp] theorem State.setFb_hit (s : State) (fb : FrameBuffer) : (s.setFb fb).hit = s.hit := rfl
@[simp] theorem State.setFb_platform (s : State) (fb : FrameBuffer) : (s.setFb fb).platform = s.platform := rfl
@[simp] theorem State.setFb_pending (s : State) (fb : FrameBuffer) : (s.setFb fb).pending = s.pending := rfl
@[simp] theorem State.setFb_replies (s : State) (fb : FrameBuffer) : (s.setFb fb).replies = s.replies := rfl

@[simp] theorem State.setHit_fb (s : State) (b : Bool) : (s.setHit b).fb = s.fb := rfl
@[simp] theorem State.setHit_regs (s : State) (b : Bool) : (s.setHit b).regs = s.regs := rfl
@[simp] theorem State.setHit_hit (s : State) (b : Bool) : (s.setHit b).hit = b := rfl
@[simp] theorem State.setHit_platform (s : State) (b : Bool) : (s.setHit b).platform = s.platform := rfl
@[simp] theorem State.setHit_pending (s : State) (b : Bool) : (s.setHit b).pending = s.pending := rfl
@[simp] theorem State.setHit_replies (s : State) (b : Bool) : (s.setHit b).replies = s.replies := rfl

@[simp] theorem State.setRegs_fb (s : State) (g : OperandRegs) : (s.setRegs g).fb = s.fb := rfl
@[simp] theorem State.setRegs_regs (s : State) (g : OperandRegs) : (s.setRegs g).regs = g := rfl
@[simp] theorem State.setRegs_hit (s : State) (g : OperandRegs) : (s.setRegs g).hit = s.hit := rfl
@[simp] theorem State.setRegs_platform (s : State) (g : OperandRegs) : (s.setRegs g).platform = s.platform := rfl
@[simp] theorem State.setRegs_pending (s : State) (g : OperandRegs) : (s.setRegs g).pending = s.pending := rfl
@[simp] theorem State.setRegs_replies (s : State) (g : OperandRegs) : (s.setRegs g).replies = s.replies := rfl

@[simp] theorem State.setPending_fb (s : State) (ts : List Transaction) : (s.setPending ts).fb = s.fb := rfl
@[simp] theorem State.setPending_regs (s : State) (ts : List Transaction) : (s.setPending ts).regs = s.regs := rfl
@[simp] theorem State.setPending_hit (s : State) (ts : List Transaction) : (s.setPending ts).hit = s.hit := rfl
@[simp] theorem State.setPending_platform (s : State) (ts : List Transaction) :
    (s.setPending ts).platform = s.platform := rfl
@[simp] theorem State.setPending_pending (s : State) (ts : List Transaction) : (s.setPending ts).pending = ts := rfl
@[simp] theorem State.setPending_replies (s : State) (ts : List Transaction) :
    (s.setPending ts).replies = s.replies := rfl

@[simp] theorem State.reply_fb (s : State) (r : Reply) : (s.reply r).fb = s.fb := rfl
@[simp] theorem State.reply_regs (s : State) (r : Reply) : (s.reply r).regs = s.regs := rfl
@[simp] theorem State.reply_hit (s : State) (r : Reply) : (s.reply r).hit = s.hit := rfl
@[simp] theorem State.reply_platform (s : State) (r : Reply) : (s.reply r).platform = s.platform := rfl
@[simp] theorem State.reply_pending (s : State) (r : Reply) : (s.reply r).pending = s.pending := rfl
@[simp] theorem State.reply_replies (s : State) (r : Reply) : (s.reply r).replies = r :: s.replies := rfl

@[simp] theorem State.writeOperand_fb (s : State) (r : OperandReg) (d : Data) : (s.writeOperand r d).fb = s.fb := rfl
@[simp] theorem State.writeOperand_regs (s : State) (r : OperandReg) (d : Data) :
    (s.writeOperand r d).regs = s.regs.write s.platform.aw r d := rfl
@[simp] theorem State.writeOperand_hit (s : State) (r : OperandReg) (d : Data) : (s.writeOperand r d).hit = s.hit := rfl
@[simp] theorem State.writeOperand_platform (s : State) (r : OperandReg) (d : Data) :
    (s.writeOperand r d).platform = s.platform := rfl
@[simp] theorem State.writeOperand_pending (s : State) (r : OperandReg) (d : Data) :
    (s.writeOperand r d).pending = s.pending := rfl
@[simp] theorem State.writeOperand_replies (s : State) (r : OperandReg) (d : Data) :
    (s.writeOperand r d).replies = s.replies := rfl

@[simp] theorem State.powerOn_fb (p : Platform) (fb : FrameBuffer) : (State.powerOn p fb).fb = fb := rfl
@[simp] theorem State.powerOn_regs (p : Platform) (fb : FrameBuffer) : (State.powerOn p fb).regs = OperandRegs.zero := rfl
@[simp] theorem State.powerOn_hit (p : Platform) (fb : FrameBuffer) : (State.powerOn p fb).hit = false := rfl
@[simp] theorem State.powerOn_platform (p : Platform) (fb : FrameBuffer) : (State.powerOn p fb).platform = p := rfl
@[simp] theorem State.powerOn_pending (p : Platform) (fb : FrameBuffer) : (State.powerOn p fb).pending = [] := rfl
@[simp] theorem State.powerOn_replies (p : Platform) (fb : FrameBuffer) : (State.powerOn p fb).replies = [] := rfl

/-- Setting the frame buffer to what it is changes nothing. -/
@[simp] theorem State.setFb_self (s : State) : s.setFb s.fb = s := rfl

/-- Setting the frame buffer twice keeps the later one. -/
@[simp] theorem State.setFb_setFb (s : State) (fb fb' : FrameBuffer) : (s.setFb fb).setFb fb' = s.setFb fb' := rfl

end Sys2Proof.Machine
end

