-- ==== Sys2Proof/Laws/Draw.lean ====
section
/-! SUPPORT. The blit: one turn of the loop, the whole loop in any order of the pixels, and everything `draw` can answer. -/

namespace Sys2Proof.Machine

/-- The source coordinate that lands on column or row `n` when the frame's origin lands on `z`. -/
def sourceIndex (n : Nat) (z : Int) : Nat := ((n : Int) - z).toNat

/-- Whether pixel `(px, py)` is the destination of source pixel `(i, j)` (R137). -/
theorem destination_iff {o : DrawOperands} {i j px py : Nat} :
    ((px : Int) = o.x + i ∧ (py : Int) = o.y + j)
      ↔ o.x ≤ px ∧ o.y ≤ py ∧ i = sourceIndex px o.x ∧ j = sourceIndex py o.y := by
  simp only [sourceIndex]
  omega

/-- One turn of the loop writes the destination pixel, from its own old value, and no other (R137, R138). -/
theorem get_drawPixel (mode : DrawMode) (p : Platform) (o : DrawOperands) (w h : Nat) (fb : FrameBuffer) (i j : Nat)
    {px py : Nat} (hpx : px < WIDTH) (hpy : py < HEIGHT) :
    FrameBuffer.get (drawPixel mode p o w h fb (i, j)) px py
      = if (px : Int) = o.x + i ∧ (py : Int) = o.y + j then
          combine mode (srcImg mode p o w h i j) (srcMsk mode p o w h i j) (FrameBuffer.get fb px py)
        else FrameBuffer.get fb px py := by
  simp only [drawPixel]
  split
  · rw [get_fbWrite _ _ _ _ hpx hpy]
    split
    · rename_i e
      rw [← e.1, ← e.2, Int.toNat_natCast, Int.toNat_natCast]
    · rfl
  · rename_i hb
    rw [if_neg]
    rintro ⟨h1, h2⟩
    exact hb ⟨by omega, by omega, by omega, by omega⟩

/-- The loop over any list of distinct source pixels: a pixel that is some listed one's destination is combined once,
from its value before the command; every other pixel keeps its value (R62, R137). -/
theorem get_foldl_drawPixel (mode : DrawMode) (p : Platform) (o : DrawOperands) (w h : Nat) (l : List (Nat × Nat))
    (hl : l.Nodup) (fb : FrameBuffer) {px py : Nat} (hpx : px < WIDTH) (hpy : py < HEIGHT) :
    FrameBuffer.get (l.foldl (drawPixel mode p o w h) fb) px py
      = if o.x ≤ px ∧ o.y ≤ py ∧ (sourceIndex px o.x, sourceIndex py o.y) ∈ l then
          combine mode (srcImg mode p o w h (sourceIndex px o.x) (sourceIndex py o.y))
            (srcMsk mode p o w h (sourceIndex px o.x) (sourceIndex py o.y)) (FrameBuffer.get fb px py)
        else FrameBuffer.get fb px py := by
  induction l generalizing fb with
  | nil => simp
  | cons ij l ih =>
    obtain ⟨i, j⟩ := ij
    obtain ⟨hnot, hl⟩ := List.nodup_cons.1 hl
    rw [List.foldl_cons, ih hl, get_drawPixel mode p o w h fb i j hpx hpy]
    simp only [destination_iff]
    by_cases hit : o.x ≤ px ∧ o.y ≤ py ∧ i = sourceIndex px o.x ∧ j = sourceIndex py o.y
    · obtain ⟨h1, h2, rfl, rfl⟩ := hit
      simp [h1, h2, hnot]
    · have : (o.x ≤ px ∧ o.y ≤ py ∧ (sourceIndex px o.x, sourceIndex py o.y) ∈ (i, j) :: l)
          ↔ (o.x ≤ px ∧ o.y ≤ py ∧ (sourceIndex px o.x, sourceIndex py o.y) ∈ l) := by
        simp only [List.mem_cons, Prod.mk.injEq]
        constructor
        · rintro ⟨h1, h2, ⟨e1, e2⟩ | h3⟩
          · exact absurd ⟨h1, h2, e1.symm, e2.symm⟩ hit
          · exact ⟨h1, h2, h3⟩
        · rintro ⟨h1, h2, h3⟩
          exact ⟨h1, h2, .inr h3⟩
      simp only [this, if_neg hit]

theorem mem_drawOrder {w h i j : Nat} : (i, j) ∈ drawOrder w h ↔ i < w ∧ j < h := by
  simp [drawOrder, and_comm]

/-- The loop visits each source pixel once. -/
theorem nodup_drawOrder (w h : Nat) : (drawOrder w h).Nodup := by
  unfold drawOrder
  rw [List.nodup_flatMap]
  refine ⟨fun j _ => (List.nodup_range).map fun a b e => (Prod.mk.inj e).1, ?_⟩
  refine (List.nodup_range (n := h)).imp fun {a b} hab => ?_
  simp only [Function.onFun, List.disjoint_left, List.mem_map, not_exists, not_and]
  rintro _ ⟨i, -, rfl⟩ i' - e
  exact hab (Prod.mk.inj e).2.symm

/-- What a DRAW leaves in a pixel: the combination of its own source pixel if it lies in the sprite's rectangle, else
its old value (R146). -/
theorem get_blit (mode : DrawMode) (p : Platform) (o : DrawOperands) (w h : Nat) (fb : FrameBuffer) {px py : Nat}
    (hpx : px < WIDTH) (hpy : py < HEIGHT) :
    FrameBuffer.get (blit mode p o w h fb) px py
      = if o.x ≤ px ∧ (px : Int) < o.x + w ∧ o.y ≤ py ∧ (py : Int) < o.y + h then
          combine mode (srcImg mode p o w h (sourceIndex px o.x) (sourceIndex py o.y))
            (srcMsk mode p o w h (sourceIndex px o.x) (sourceIndex py o.y)) (FrameBuffer.get fb px py)
        else FrameBuffer.get fb px py := by
  rw [blit, get_foldl_drawPixel mode p o w h _ (nodup_drawOrder w h) fb hpx hpy]
  congr 1
  simp only [mem_drawOrder, sourceIndex, eq_iff_iff]
  omega

/-- A frame is in memory exactly if each of its bytes lies below `ROM_SIZE` (R60). -/
theorem frameInMemory_iff {p : Platform} {base size : Nat} :
    frameInMemory p base size = true ↔ ∀ n < size, base + n < p.romSize := by
  simp only [frameInMemory, Bool.or_eq_true, beq_iff_eq, decide_eq_true_eq]
  constructor
  · rintro (rfl | h) n hn <;> omega
  · intro h
    rcases Nat.eq_zero_or_pos size with h0 | h0
    · exact .inl h0
    · have := h (size - 1) (by omega)
      omega

/-- The header is what the two bytes at the bitmap's address say (R101). -/
theorem header_eq_some {p : Platform} {bitmap w h : Nat} :
    header p bitmap = some (w, h)
      ↔ bitmap + 1 < p.romSize ∧ (p.byteAt bitmap).toNat = w ∧ (p.byteAt (bitmap + 1)).toNat = h := by
  unfold header Platform.memRead
  by_cases h1 : bitmap + 1 < p.romSize
  · simp [h1, show bitmap < p.romSize by omega]
  · simp [h1]

theorem header_eq_none {p : Platform} {bitmap : Nat} : header p bitmap = none ↔ p.romSize ≤ bitmap + 1 := by
  rcases hh : header p bitmap with _ | ⟨w, h⟩
  · refine iff_of_true rfl (Nat.le_of_not_lt fun h1 => ?_)
    rw [header_eq_some.2 ⟨h1, rfl, rfl⟩] at hh
    cases hh
  · have := header_eq_some.1 hh
    exact iff_of_false nofun (by omega)

/-- `draw` where the header cannot be read. -/
theorem draw_of_no_header {mode : DrawMode} {s : State}
    (hh : header s.platform (drawOperands s.regs).bitmap = none) : draw mode s = .refused .beyondBitmapMemory := by
  simp only [draw, hh]

/-- `draw` where the header is read: two checks, then the loop (R137). -/
theorem draw_of_header {mode : DrawMode} {s : State} {w h : Nat}
    (hh : header s.platform (drawOperands s.regs).bitmap = some (w, h)) :
    draw mode s
      = if h % 8 ≠ 0 then .refused .heightNotMultipleOf8
        else if framesInMemory mode s.platform (drawOperands s.regs) w h = true then
          .next (s.setFb (blit mode s.platform (drawOperands s.regs) w h s.fb))
        else .refused .beyondBitmapMemory := by
  simp only [draw, hh]

/-- A defined DRAW on the same operands and another frame buffer: definedness does not depend on the buffer, so a
sequence of DRAWs with the same operands needs one check. -/
theorem draw_setFb {mode : DrawMode} {s : State} {w h : Nat}
    (hh : header s.platform (drawOperands s.regs).bitmap = some (w, h)) (h8 : h % 8 = 0)
    (hf : framesInMemory mode s.platform (drawOperands s.regs) w h = true) (fb : FrameBuffer) :
    draw mode (s.setFb fb) = .next (s.setFb (blit mode s.platform (drawOperands s.regs) w h fb)) := by
  simp [draw, hh, h8, hf]

/-- Everything `draw` can answer with a next state: the header is read, the height is a multiple of 8, every frame byte is
in memory, and only the frame buffer changes (R137, R139). -/
theorem draw_eq_next {mode : DrawMode} {s t : State} :
    draw mode s = .next t
      ↔ ∃ w h, header s.platform (drawOperands s.regs).bitmap = some (w, h) ∧ h % 8 = 0
          ∧ framesInMemory mode s.platform (drawOperands s.regs) w h = true
          ∧ t = s.setFb (blit mode s.platform (drawOperands s.regs) w h s.fb) := by
  constructor
  · intro hd
    rcases hh : header s.platform (drawOperands s.regs).bitmap with _ | ⟨w, h⟩
    · rw [draw_of_no_header hh] at hd
      cases hd
    · rw [draw_of_header hh] at hd
      split at hd
      · cases hd
      · split at hd
        · cases hd
          exact ⟨w, h, rfl, by omega, ‹_›, rfl⟩
        · cases hd
  · rintro ⟨w, h, hh, h8, hf, rfl⟩
    rw [draw_of_header hh, if_neg (not_not.2 h8), if_pos hf]

/-- Everything `draw` can refuse (U1, U2). -/
theorem draw_eq_refused {mode : DrawMode} {s : State} {r : Refusal} :
    draw mode s = .refused r
      ↔ (header s.platform (drawOperands s.regs).bitmap = none ∧ r = .beyondBitmapMemory)
        ∨ ∃ w h, header s.platform (drawOperands s.regs).bitmap = some (w, h)
          ∧ ((h % 8 ≠ 0 ∧ r = .heightNotMultipleOf8)
            ∨ (h % 8 = 0 ∧ framesInMemory mode s.platform (drawOperands s.regs) w h ≠ true
              ∧ r = .beyondBitmapMemory)) := by
  constructor
  · intro hd
    rcases hh : header s.platform (drawOperands s.regs).bitmap with _ | ⟨w, h⟩
    · rw [draw_of_no_header hh] at hd
      cases hd
      exact .inl ⟨rfl, rfl⟩
    · rw [draw_of_header hh] at hd
      refine .inr ⟨w, h, rfl, ?_⟩
      split at hd
      · cases hd
        exact .inl ⟨‹_›, rfl⟩
      · split at hd
        · cases hd
        · cases hd
          exact .inr ⟨by omega, ‹_›, rfl⟩
  · rintro (⟨hh, rfl⟩ | ⟨w, h, hh, ⟨h8, rfl⟩ | ⟨h8, hf, rfl⟩⟩)
    · exact draw_of_no_header hh
    · rw [draw_of_header hh, if_pos h8]
    · rw [draw_of_header hh, if_neg (not_not.2 h8), if_neg hf]

/-- A DRAW never answers a fault: there is none (R170). -/
theorem draw_total (mode : DrawMode) (s : State) : (∃ t, draw mode s = .next t) ∨ ∃ r, draw mode s = .refused r := by
  rcases h : draw mode s with t | r | r
  · exact .inl ⟨t, rfl⟩
  · cases r
  · exact .inr ⟨r, rfl⟩

end Sys2Proof.Machine
end

