-- ==== Sys2Proof/Laws/Registers.lean ====
section
/-! SUPPORT. Operand registers and their addresses: read after write, and that BMP and MSK keep to `AW` bits. -/

namespace Sys2Proof.Machine

theorem lowBits_toNat (n : Nat) (d : Data) : (lowBits n d).toNat = d.toNat % 2 ^ n := by
  rw [lowBits, BitVec.toNat_ofNat]
  exact Nat.mod_eq_of_lt ((Nat.mod_le _ _).trans_lt d.isLt)

/-- A register reads back the low bits written to it, as many as its width, zero above (R40, R41). -/
theorem OperandRegs.read_write_self (aw : Nat) (g : OperandRegs) (r : OperandReg) (d : Data) :
    ((g.write aw r d).read r).toNat = d.toNat % 2 ^ operandWidth aw r := by
  cases r <;>
    simp only [OperandRegs.write, OperandRegs.read, operandWidth, lowBits_toNat, BitVec.toNat_setWidth] <;> omega

/-- A write leaves every other register as it was. -/
theorem OperandRegs.read_write_other (aw : Nat) (g : OperandRegs) {r r' : OperandReg} (d : Data) (h : r' ≠ r) :
    (g.write aw r d).read r' = g.read r' := by
  cases r <;> cases r' <;> first | exact absurd rfl h | rfl

/-- The registers are determined by what they read as. -/
theorem OperandRegs.ext_read {g g' : OperandRegs} (h : ∀ r, g.read r = g'.read r) : g = g' := by
  have inj16 : ∀ {a b : Half}, a.setWidth 32 = b.setWidth 32 → a = b := fun {a b} e => by
    have := congrArg BitVec.toNat e
    simp only [BitVec.toNat_setWidth] at this
    exact BitVec.eq_of_toNat_eq (by omega)
  have inj8 : ∀ {a b : Byte}, a.setWidth 32 = b.setWidth 32 → a = b := fun {a b} e => by
    have := congrArg BitVec.toNat e
    simp only [BitVec.toNat_setWidth] at this
    exact BitVec.eq_of_toNat_eq (by omega)
  exact OperandRegs.ext (inj16 (h .posx)) (inj16 (h .posy)) (h .bmp) (inj8 (h .frm)) (h .msk) (inj8 (h .mfrm))
    (inj16 (h .r1x)) (inj16 (h .r1y)) (inj16 (h .r1w)) (inj16 (h .r1h)) (inj16 (h .r2x)) (inj16 (h .r2y))
    (inj16 (h .r2w)) (inj16 (h .r2h))

/-- After any write BMP holds at most `AW` bits if it did before. -/
theorem OperandRegs.bmp_lt_write {aw : Nat} {g : OperandRegs} (r : OperandReg) (d : Data) (h : g.bmp.toNat < 2 ^ aw) :
    (g.write aw r d).bmp.toNat < 2 ^ aw := by
  cases r <;> first
    | exact h
    | (simp only [OperandRegs.write, lowBits_toNat]; exact Nat.mod_lt _ (Nat.two_pow_pos _))

/-- After any write MSK holds at most `AW` bits if it did before. -/
theorem OperandRegs.msk_lt_write {aw : Nat} {g : OperandRegs} (r : OperandReg) (d : Data) (h : g.msk.toNat < 2 ^ aw) :
    (g.write aw r d).msk.toNat < 2 ^ aw := by
  cases r <;> first
    | exact h
    | (simp only [OperandRegs.write, lowBits_toNat]; exact Nat.mod_lt _ (Nat.two_pow_pos _))

/-- `sext_16` is the two's complement reading (R11). -/
theorem sext16_eq_toInt (v : Half) : sext16 v = v.toInt := by
  have := v.isLt
  simp only [sext16, BitVec.toInt]
  split <;> split <;> omega

/-- A signed operand lies in -32768..32767 (R26, R86). -/
theorem sext16_bounds (v : Half) : -32768 ≤ sext16 v ∧ sext16 v ≤ 32767 := by
  have := v.isLt
  simp only [sext16]
  split <;> omega

end Sys2Proof.Machine

namespace Sys2Proof

/-- Every register's address decodes to it (R25). -/
@[simp] theorem decodeRegister_registerAddress (r : RegName) : decodeRegister (registerAddress r) = some r := by
  rcases r with _ | _ | r
  · rfl
  · rfl
  · cases r <;> rfl

/-- Only a register's own address decodes to it (R25: "none aliases another"). -/
theorem decodeRegister_eq_some {a : RegAddr} {r : RegName} : decodeRegister a = some r ↔ a = registerAddress r := by
  constructor
  · intro h
    unfold decodeRegister at h
    split at h <;> cases h <;> rfl
  · rintro rfl
    exact decodeRegister_registerAddress r

end Sys2Proof
end

