-- ==== Sys2Proof/Laws/Exec.lean ====
section
/-! SUPPORT. Everything a command, a transaction and a step can do, said once. -/

namespace Sys2Proof.Machine

/-- A DRAW command is `draw` in its mode (R84). -/
theorem exec_of_drawMode {i : Instr} {mode : DrawMode} (h : i.drawMode = some mode) (s : State) :
    exec i s = draw mode s := by
  cases i <;> simp only [Instr.drawMode, Option.some.injEq, reduceCtorEq] at h <;> subst h <;> rfl

/-- The four commands that are no DRAW always complete (R122, R123, R125, R161). -/
theorem exec_of_no_drawMode {i : Instr} (h : i.drawMode = none) (s : State) : ∃ t, exec i s = .next t := by
  cases i <;> first | exact ⟨_, rfl⟩ | cases h

/-- Everything a command can change: COLLIDE the HIT flag, every other command the frame buffer (R44). -/
theorem exec_next_cases {i : Instr} {s t : State} (h : exec i s = .next t) :
    (i = .collide ∧ t = s.setHit (collide (rect1 s.regs) (rect2 s.regs)))
      ∨ (i ≠ .collide ∧ ∃ fb, t = s.setFb fb) := by
  rcases hm : i.drawMode with _ | mode
  · cases i <;> simp only [Instr.drawMode, reduceCtorEq] at hm <;> cases h
    · exact .inr ⟨nofun, _, rfl⟩
    · exact .inr ⟨nofun, _, rfl⟩
    · exact .inr ⟨nofun, _, rfl⟩
    · exact .inl ⟨rfl, rfl⟩
  · rw [exec_of_drawMode hm] at h
    obtain ⟨w, hgt, -, -, -, rfl⟩ := draw_eq_next.1 h
    exact .inr ⟨fun e => (by rw [e] at hm; cases hm), _, rfl⟩

/-- A write to CMD that completes runs the command its data decode to (R39). -/
theorem writeCommand_eq_next {d : Data} {s t : State} :
    writeCommand d s = .next t ↔ ∃ i, decode d = .ok i ∧ exec i s = .next t := by
  unfold writeCommand
  rcases decode d with ⟨c⟩ | i
  · exact iff_of_false nofun (by rintro ⟨i, h, -⟩; cases h)
  · constructor
    · exact fun h => ⟨i, rfl, h⟩
    · rintro ⟨_, h, h'⟩
      cases h
      exact h'

/-- Everything a register write can do (R40). -/
theorem regWrite_next_cases {a : RegAddr} {d : Data} {s t : State} (h : regWrite a d s = .next t) :
    (decodeRegister a = some .cmd ∧ ∃ i, decode d = .ok i ∧ exec i s = .next t)
      ∨ (decodeRegister a = some .status ∧ t = s)
      ∨ ∃ r, decodeRegister a = some (.operand r) ∧ t = s.writeOperand r d := by
  unfold regWrite at h
  split at h
  · exact .inl ⟨‹_›, writeCommand_eq_next.1 h⟩
  · cases h
    exact .inr (.inl ⟨‹_›, rfl⟩)
  · cases h
    exact .inr (.inr ⟨_, ‹_›, rfl⟩)
  · cases h

/-- Everything a register read can do (R41). -/
theorem regRead_next_cases {a : RegAddr} {s t : State} (h : regRead a s = .next t) :
    ∃ reg, decodeRegister a = some reg ∧ t = s.reply (.data (busValue s reg)) := by
  unfold regRead at h
  split at h
  · cases h
    exact ⟨_, ‹_›, rfl⟩
  · cases h

/-- Everything a transaction can do: run a command, write one operand register, nothing, or hand the host one value. -/
theorem transact_next_cases {tr : Transaction} {s t : State} (h : transact tr s = .next t) :
    (∃ d i, tr = .regWrite 0x00#6 d ∧ decode d = .ok i ∧ exec i s = .next t)
      ∨ (∃ d, tr = .regWrite 0x01#6 d ∧ t = s)
      ∨ (∃ d r, tr = .regWrite (registerAddress (.operand r)) d ∧ t = s.writeOperand r d)
      ∨ (∃ a, tr = .regRead a ∧ ∃ d, t = s.reply (.data d))
      ∨ ∃ n, tr = .fbRead n ∧ t = s.reply (.pixel (fbRead s.fb n)) := by
  cases tr with
  | regWrite a d =>
    obtain ⟨ha, i, hd, he⟩ | ⟨ha, rfl⟩ | ⟨r, ha, rfl⟩ := regWrite_next_cases h
    · exact .inl ⟨d, i, by rw [decodeRegister_eq_some.1 ha]; rfl, hd, he⟩
    · exact .inr (.inl ⟨d, by rw [decodeRegister_eq_some.1 ha]; rfl, rfl⟩)
    · exact .inr (.inr (.inl ⟨d, r, by rw [decodeRegister_eq_some.1 ha], rfl⟩))
  | regRead a =>
    obtain ⟨reg, -, rfl⟩ := regRead_next_cases h
    exact .inr (.inr (.inr (.inl ⟨a, rfl, _, rfl⟩)))
  | fbRead n =>
    cases h
    exact .inr (.inr (.inr (.inr ⟨n, rfl, rfl⟩)))

@[simp] theorem step_of_idle {s : State} (h : s.pending = []) : step s = .next s := by
  simp only [step, h]

theorem step_of_pending {s : State} {tr : Transaction} {rest : List Transaction} (h : s.pending = tr :: rest) :
    step s = transact tr (s.setPending rest) := by
  simp only [step, h]

/-- Everything a step can do: wait, or complete the host's next transaction. -/
theorem step_next_cases {s t : State} (h : step s = .next t) :
    (s.pending = [] ∧ t = s)
      ∨ ∃ tr rest, s.pending = tr :: rest ∧ transact tr (s.setPending rest) = .next t := by
  rcases hp : s.pending with _ | ⟨tr, rest⟩
  · rw [step_of_idle hp] at h
    cases h
    exact .inl ⟨rfl, rfl⟩
  · rw [step_of_pending hp] at h
    exact .inr ⟨tr, rest, rfl, h⟩

/-- A run goes on from where its first step leads. -/
theorem run_succ {k : Nat} {s t : State} (h : step s = .next t) :
    Sys2Proof.core.run (k + 1) s = Sys2Proof.core.run k t := by
  have h' : Sys2Proof.core.step s = .next t := h
  simp only [Host.Core.run, h']

/-- A run of one step is that step. -/
theorem run_one (s : State) : Sys2Proof.core.run 1 s = step s := by
  rcases h : step s with t | r | r
  · exact run_succ (k := 0) h
  · cases r
  · have h' : Sys2Proof.core.step s = .refused r := h
    simp only [Host.Core.run, h']
    rfl

end Sys2Proof.Machine
end

