-- ==== Sys2Proof/Laws/PerInstr.lean ====
section
/-! SUPPORT. What holds of every command as syntax, one lemma per constructor: it is well formed and its CMD8 code has
the group of its component and zeros above the byte (R81). -/

namespace Sys2Proof.Laws.Encoding

/-- The code is a well-formed command's, one byte long, and its group is that of a component: 1 to 4 (R81). -/
def Statement (i : Instr) : Prop :=
  i.wf = true ∧ (encode i).toNat < 256 ∧ 1 ≤ (commandGroup (encode i)).toNat ∧ (commandGroup (encode i)).toNat ≤ 4

theorem drawExtmask : Statement .drawExtmask := by unfold Statement; decide
theorem drawPlusmask : Statement .drawPlusmask := by unfold Statement; decide
theorem drawOverwrite : Statement .drawOverwrite := by unfold Statement; decide
theorem drawErase : Statement .drawErase := by unfold Statement; decide
theorem drawSelfmask : Statement .drawSelfmask := by unfold Statement; decide
theorem pixelClr : Statement .pixelClr := by unfold Statement; decide
theorem pixelSet : Statement .pixelSet := by unfold Statement; decide
theorem fbClear : Statement .fbClear := by unfold Statement; decide
theorem collide : Statement .collide := by unfold Statement; decide

end Sys2Proof.Laws.Encoding
end

