-- ==== Sys2Proof/Tests/Slice0.lean ====
section
/-! SUPPORT. Tests from the spec's own vectors (95_test_vectors.md), the smoke tests of WellFormed, and a witness for the
hypotheses of every statement of Certificates/Slice0/Obligations.lean that has any. -/

namespace Sys2Proof.Tests

open Sys2Proof.Machine

-- One theorem at a time: elaborating many kernel computations at once runs out of threads.
set_option Elab.async false

/-! ### The configuration and bitmap memory of 95_test_vectors.md section 0 -/

/-- The cells of consecutive bytes, zeros left unlisted. -/
def cellsFrom (addr : Nat) : List Byte → Memory
  | [] => []
  | b :: bs => if b = 0 then cellsFrom (addr + 1) bs else (addr, b) :: cellsFrom (addr + 1) bs

def rom1 : Memory := cellsFrom 0x10 [0x08, 0x08, 0xFF, 0x81, 0x81, 0x81, 0x81, 0x81, 0x81, 0xFF]
def rom2 : Memory :=
  cellsFrom 0x20 [0x03, 0x10, 0x01, 0x02, 0x04, 0x80, 0x40, 0x20, 0xFF, 0x00, 0xFF, 0x0F, 0xF0, 0x0F]
def rom3 : Memory := cellsFrom 0x30 [0x02, 0x08, 0x55, 0xFF, 0xAA, 0x0F, 0xFF, 0x81, 0x00, 0x7E]
def rom4 : Memory := cellsFrom 0x40 (List.replicate 8 0x0F ++ List.replicate 8 0xFF)
def rom6 : Memory := cellsFrom 0x60 [0x04, 0x08, 0x01, 0x03, 0x07, 0x0F, 0xF0, 0xE0, 0xC0, 0x80]
def rom7 : Memory := cellsFrom 0x70 [0x02, 0x08, 0x0F, 0xF0, 0x00, 0x00, 0x00, 0x00, 0x00, 0x08, 0x05, 0x00]
def rom8 : Memory := cellsFrom 0x80 [0x02, 0x0C, 0xFF, 0xFF, 0xFF, 0xFF]

/-- `AW = 16`, `ROM_SIZE = 256` and the bytes of section 0. -/
def platform : Platform := ⟨16, 256, rom1 ++ rom2 ++ rom3 ++ rom4 ++ rom6 ++ rom7 ++ rom8⟩

/-- The state after reset on that platform and after an FB.CLEAR. -/
def clear0 : State := State.powerOn platform 0

/-- The same with every pixel 1. -/
def ones0 : State := State.powerOn platform (BitVec.allOnes _)

/-- The DRAW and PIXEL operands loaded. -/
def State.at (s : State) (x y : Int) (bmp frm msk mfrm : Nat) : State :=
  s.setRegs { s.regs with
    posx := BitVec.ofInt 16 x, posy := BitVec.ofInt 16 y, bmp := BitVec.ofNat 32 bmp, frm := BitVec.ofNat 8 frm,
    msk := BitVec.ofNat 32 msk, mfrm := BitVec.ofNat 8 mfrm }

/-- The two rectangles loaded. -/
def rects (x1 y1 : Int) (w1 h1 : Nat) (x2 y2 : Int) (w2 h2 : Nat) : State :=
  clear0.setRegs { clear0.regs with
    r1x := BitVec.ofInt 16 x1, r1y := BitVec.ofInt 16 y1, r1w := BitVec.ofNat 16 w1, r1h := BitVec.ofNat 16 h1,
    r2x := BitVec.ofInt 16 x2, r2y := BitVec.ofInt 16 y2, r2w := BitVec.ofNat 16 w2, r2h := BitVec.ofNat 16 h2 }

/-- A buffer with these pixels given this value. -/
def paint (fb : FrameBuffer) (b : Bool) (l : List (Nat × Nat)) : FrameBuffer :=
  l.foldl (fun fb p => FrameBuffer.put fb p.1 p.2 b) fb

/-- `(x, a..b)` of the vectors. -/
def column (x a b : Nat) : List (Nat × Nat) := (List.range (b + 1 - a)).map fun k => (x, a + k)

/-- `(a..b, y)` of the vectors. -/
def rowOf (a b y : Nat) : List (Nat × Nat) := (List.range (b + 1 - a)).map fun k => (a + k, y)

/-- The frame buffer a command leaves, if it completes. -/
def fbAfter (i : Instr) (s : State) : Option FrameBuffer :=
  match exec i s with
  | .next t => some t.fb
  | .fault _ => none
  | .refused _ => none

/-- Whether an outcome is a next state. -/
def completes (o : Host.Outcome State Fault Refusal) : Bool :=
  match o with
  | .next _ => true
  | .fault _ => false
  | .refused _ => false

/-- The refusal an outcome gives. -/
def refusal (o : Host.Outcome State Fault Refusal) : Option Refusal :=
  match o with
  | .next _ => none
  | .fault _ => none
  | .refused r => some r

/-- HIT after a command. -/
def hitAfter (i : Instr) (s : State) : Option Bool :=
  match exec i s with
  | .next t => some t.hit
  | .fault _ => none
  | .refused _ => none

/-- The replies after `k` steps with these transactions pending, oldest first. -/
def repliesAfter (k : Nat) (s : State) (ts : List Transaction) : Option (List Reply) :=
  match Sys2Proof.core.run k (s.setPending ts) with
  | .next t => some (State.replies t).reverse
  | .fault _ => none
  | .refused _ => none

/-! ### Decoding: words written out from R83 -/

theorem test_decode_drawExtmask : decode 0b00010000#32 = .ok .drawExtmask := by decide
theorem test_decode_drawPlusmask : decode 0b00010001#32 = .ok .drawPlusmask := by decide
theorem test_decode_drawOverwrite : decode 0b00010010#32 = .ok .drawOverwrite := by decide
theorem test_decode_drawErase : decode 0b00010011#32 = .ok .drawErase := by decide
theorem test_decode_drawSelfmask : decode 0b00010100#32 = .ok .drawSelfmask := by decide
theorem test_decode_pixelClr : decode 0b00100000#32 = .ok .pixelClr := by decide
theorem test_decode_pixelSet : decode 0b00100001#32 = .ok .pixelSet := by decide
theorem test_decode_fbClear : decode 0b00110000#32 = .ok .fbClear := by decide
theorem test_decode_collide : decode 0b01000000#32 = .ok .collide := by decide

/-- Vector F7: the upper 24 bits of a CMD write are ignored. -/
theorem test_decode_ignores_upper_bits : decode 0xABCDEF21#32 = .ok .pixelSet := by decide

/-- Vector X7: reserved codes. -/
theorem test_decode_reserved :
    [0x00#32, 0x15#32, 0x22#32, 0x31#32, 0x41#32, 0xFF#32].map decode
      = [0x00#8, 0x15#8, 0x22#8, 0x31#8, 0x41#8, 0xFF#8].map fun c => .error (.reservedCommand c) := by decide

theorem test_decodeTableWord :
    decodeTableWord 8 0x14 = some .drawSelfmask ∧ decodeTableWord 8 0x15 = none := by decide

/-- R25: the addresses of MFRM and R2H, and the first reserved one. -/
theorem test_decodeRegister :
    decodeRegister 0x07#6 = some (.operand .mfrm) ∧ decodeRegister 0x0F#6 = some (.operand .r2h)
      ∧ decodeRegister 0x10#6 = none := by decide

/-- Program P3: `wr POSX, -2` is `W 02 FFFFFFFE`; P1: `fb 904` is `F 0388`. -/
theorem test_assemble :
    (Line.wr (.operand .posx) (-2)).assemble = .regWrite 0x02#6 0xFFFFFFFE#32
      ∧ (Line.fb 904).assemble = .fbRead 0x0388#13 := by decide

/-- R80's listing forms, of program P3's `wr POSX, -2` and P1's `fb 904`. -/
theorem test_listing :
    (Line.wr (.operand .posx) (-2)).assemble.listing
        = ['W', ' ', '0', '2', ' ', 'F', 'F', 'F', 'F', 'F', 'F', 'F', 'E']
      ∧ (Line.fb 904).assemble.listing = ['F', ' ', '0', '3', '8', '8']
      ∧ (Line.rd .status).assemble.listing = ['R', ' ', '0', '1'] := by decide

/-- Vector K1 as transactions. -/
theorem test_expand_collide :
    (Pseudo.collide 0 0 10 10 5 5 10 10).expand.map Line.assemble
      = [.regWrite 0x08 0, .regWrite 0x09 0, .regWrite 0x0A 10, .regWrite 0x0B 10, .regWrite 0x0C 5, .regWrite 0x0D 5,
        .regWrite 0x0E 10, .regWrite 0x0F 10, .regWrite 0x00 0x40, .regRead 0x01] := by decide

/-! ### WellFormed refuses each ill-formed term -/

theorem test_wf_refuses_unsorted_memory : ¬ Memory.wf [(5, 1), (4, 1)] := by decide
theorem test_wf_refuses_repeated_address : ¬ Memory.wf [(5, 1), (5, 2)] := by decide
theorem test_wf_refuses_listed_default : ¬ Memory.wf [(5, 0)] := by decide
theorem test_wf_refuses_zero_aw : ¬ Platform.wf ⟨0, 1, []⟩ := by decide
theorem test_wf_refuses_wide_aw : ¬ Platform.wf ⟨33, 256, []⟩ := by decide
theorem test_wf_refuses_empty_rom : ¬ Platform.wf ⟨16, 0, []⟩ := by decide
theorem test_wf_refuses_rom_beyond_aw : ¬ Platform.wf ⟨8, 257, []⟩ := by decide
theorem test_wf_refuses_noncanonical_rom : ¬ Platform.wf ⟨16, 256, [(5, 0)]⟩ := by decide
theorem test_wf_refuses_cell_beyond_rom : ¬ Platform.wf ⟨16, 256, [(256, 1)]⟩ := by decide
theorem test_wf_refuses_write_of_status : (Line.wr .status 0).wf = false := by decide
theorem test_wf_refuses_wide_value :
    (Line.wr .cmd (2 ^ 32)).wf = false ∧ (Line.wr .cmd (-2 ^ 31 - 1)).wf = false := by decide
theorem test_wf_refuses_pixel_index : (Line.fb 8192).wf = false := by decide
theorem test_wf_refuses_wide_position : (Pseudo.pixel 32768 0 true).wf 16 = false := by decide
theorem test_wf_refuses_wide_address :
    (Pseudo.drawOverwrite 0 0 65536 0).wf 16 = false ∧ (Pseudo.drawExtmask 0 0 0 0 65536 0).wf 16 = false
      ∧ (Pseudo.drawPlusmask 0 (-32769) 0 0).wf 16 = false ∧ (Pseudo.drawErase 0 0 0 256).wf 16 = false
      ∧ (Pseudo.drawSelfmask 32768 0 0 0).wf 16 = false := by decide
theorem test_wf_refuses_wide_rect : (Pseudo.collide 0 0 65536 0 0 0 0 0).wf 16 = false := by decide
theorem test_platform_wf : platform.wf := by decide +kernel

/-! ### Commands -/

/-- Vector B12: mask frame 0 opens rows 0..3; `(3,2)` is cleared, `(0,6)` kept. -/
theorem test_extmask_B12 :
    fbAfter .drawExtmask ((State.at clear0 0 0 0x10 0 0x40 0).setFb (paint 0 true [(0, 6), (3, 2)]))
      = some (paint 0 true (rowOf 0 7 0 ++ column 0 1 3 ++ column 7 1 3 ++ [(0, 6)])) := by decide +kernel

/-- Vector B18: the mask is addressed with the image's width, and the draw is clipped at the left. -/
theorem test_extmask_B18 :
    fbAfter .drawExtmask (State.at clear0 (-2) 0 0x60 0 0x40 0)
      = some (paint 0 true (column 0 0 2 ++ column 1 0 3)) := by decide +kernel

/-- Vector B15 on an all-1 buffer: image byte first, mask byte second. -/
theorem test_plusmask_B15 :
    fbAfter .drawPlusmask (State.at ones0 0 0 0x30 0 0 0)
      = some (paint (BitVec.allOnes _) false [(0, 1), (0, 3), (0, 5), (0, 7), (1, 0), (1, 2)]) := by decide +kernel

/-- Vector B16: frame 1, clipped at the bottom-right corner. -/
theorem test_plusmask_B16 :
    fbAfter .drawPlusmask (State.at clear0 127 62 0x30 1 0 0) = some (paint 0 true [(127, 62)]) := by decide +kernel

/-- Vector B2: clipped left and top. -/
theorem test_overwrite_B2 :
    fbAfter .drawOverwrite (State.at clear0 (-3) (-2) 0x10 0 0 0)
      = some (paint 0 true (rowOf 0 3 5 ++ column 4 0 5)) := by decide +kernel

/-- Vector B6: frame 1 of a two-band bitmap. -/
theorem test_overwrite_B6 :
    fbAfter .drawOverwrite (State.at clear0 10 3 0x20 1 0 0)
      = some (paint 0 true (column 10 3 14 ++ column 12 3 14 ++ column 11 15 18)) := by decide +kernel

/-- Vector B11: Erase on an all-1 buffer. -/
theorem test_erase_B11 :
    fbAfter .drawErase (State.at ones0 0 0 0x60 1 0 0)
      = some (paint (BitVec.allOnes _) false (column 0 4 7 ++ column 1 5 7 ++ column 2 6 7 ++ [(3, 7)])) := by
  decide +kernel

/-- Vector X1: a height of 12 is refused. -/
theorem test_erase_X1 :
    refusal (exec .drawErase (State.at clear0 0 0 0x80 0 0 0)) = some .heightNotMultipleOf8 := by decide +kernel

/-- Vector B9: Self-Masked only sets. -/
theorem test_selfmask_B9 :
    fbAfter .drawSelfmask ((State.at clear0 5 5 0x10 0 0 0).setFb (paint 0 true [(6, 6), (20, 20)]))
      = some (paint 0 true (rowOf 5 12 5 ++ rowOf 5 12 12 ++ column 5 6 11 ++ column 12 6 11
          ++ [(6, 6), (20, 20)])) := by decide +kernel

/-- Vectors B21 and X3: frame 28 lies in memory and is drawn, frame 29 reaches 0x101 and is refused. -/
theorem test_selfmask_X3 :
    completes (exec .drawSelfmask (State.at clear0 0 0 0x10 28 0 0)) = true
      ∧ refusal (exec .drawSelfmask (State.at clear0 128 0 0x10 29 0 0)) = some .beyondBitmapMemory := by
  decide +kernel

/-- R122's example: `(5,63)` is cleared; with POSY = 64 nothing changes. -/
theorem test_pixelClr :
    fbAfter .pixelClr (State.at ones0 5 63 0 0 0 0) = some (paint (BitVec.allOnes _) false [(5, 63)])
      ∧ fbAfter .pixelClr (State.at ones0 5 64 0 0 0 0) = some (BitVec.allOnes _) := by decide +kernel

/-- Vectors F3, F4 and F5: the corner pixel; x = 128 and x = -1 write nothing. -/
theorem test_pixelSet :
    fbAfter .pixelSet (State.at clear0 127 63 0 0 0 0) = some (paint 0 true [(127, 63)])
      ∧ fbAfter .pixelSet (State.at clear0 128 0 0 0 0 0) = some 0
      ∧ fbAfter .pixelSet (State.at clear0 (-1) 0 0 0 0 0) = some 0 := by decide +kernel

/-- Vector F1. -/
theorem test_fbClear : fbAfter .fbClear ones0 = some 0 := by decide +kernel

/-- Vectors K1, K2, K10 (zero width) and K16. -/
theorem test_collide :
    [rects 0 0 10 10 5 5 10 10, rects 0 0 10 10 10 0 10 10, rects 0 0 10 10 5 5 0 3,
        rects 0 0 10 10 (-1) (-1) 2 2].map (hitAfter .collide) = [some true, some false, some false, some true] := by
  decide +kernel

/-- Vector K17: the sum 98302 is formed exactly. -/
theorem test_collide_K17 : hitAfter .collide (rects 32767 0 65535 1 32767 0 1 1) = some true := by decide +kernel

/-! ### Transactions -/

/-- Vectors F7 and F12: upper data bits are discarded, POSX reads back zero-extended, pixel index 0x185 is `(5,3)`. -/
theorem test_transactions_F7 :
    repliesAfter 6 clear0
        [.regWrite 0x02 0xFFFF0005, .regWrite 0x03 0x12340003, .regWrite 0x00 0xABCDEF21, .fbRead 0x0185,
          .regWrite 0x02 0xFFFFFFF8, .regRead 0x02]
      = some [.pixel true, .data 0x0000FFF8] := by decide +kernel

/-- Vector X8, and the reads of CMD and STATUS that vector F11 gives. -/
theorem test_transactions_X8 :
    refusal (step (clear0.setPending [.regWrite 0x10 0])) = some (.reservedRegister 0x10)
      ∧ refusal (step (clear0.setPending [.regRead 0x3F])) = some (.reservedRegister 0x3F)
      ∧ repliesAfter 2 clear0 [.regRead 0x00, .regRead 0x01] = some [.data 0, .data 0] := by decide +kernel

/-- From reset, with nothing placed, the engine waits; with a word placed the very next step runs it. -/
theorem test_withFetchWord :
    step State.reset = .next State.reset
      ∧ step (State.reset.withFetchWord 8 0x30) = exec .fbClear State.reset
      ∧ step (State.reset.withFetchWord 8 0x12) = exec .drawOverwrite State.reset := ⟨rfl, rfl, rfl⟩

/-! ### Witnesses: for every statement with hypotheses, states and operands that meet them, at the ends of their ranges -/

/-- The state a command or step answers, for commands that complete. -/
def stateOr (s : State) (o : Host.Outcome State Fault Refusal) : State :=
  match o with
  | .next t => t
  | .fault _ => s
  | .refused _ => s

theorem eq_stateOr (s : State) {o : Host.Outcome State Fault Refusal} (h : completes o = true) :
    o = .next (stateOr s o) := by
  cases o with
  | next t => rfl
  | fault r => cases h
  | refused r => cases h

theorem exists_of_completes {o : Host.Outcome State Fault Refusal} (h : completes o = true) : ∃ t, o = .next t :=
  ⟨_, eq_stateOr clear0 h⟩

theorem not_exists_of_refuses {o : Host.Outcome State Fault Refusal} (h : completes o = false) :
    ¬ ∃ t, o = .next t := by
  rintro ⟨t, rfl⟩
  cases h

theorem exists_of_all {l : List Instr} {s : State} (h : (l.all fun i => completes (exec i s)) = true) :
    ∀ i ∈ l, ∃ t, exec i s = .next t :=
  fun i hi => exists_of_completes (List.all_eq_true.1 h i hi)

/-- A host about to issue these transactions to a cleared engine. -/
def sends (ts : List Transaction) : State := clear0.setPending ts

/-- A 2 by 8 bitmap's frame 70, the last in memory, whose bytes are 0xFE and 0xFF; MSK and MFRM name the same bytes. -/
def last (x y : Int) : State := State.at clear0 x y 0x70 70 0x72 70

/-- A 4 by 8 bitmap with the last mask frame in memory, bytes 0xFC to 0xFF. -/
def masked : State := State.at clear0 (-2) 60 0x60 38 0x40 47

theorem last_defined (x y : Int) : drawDefined .overwrite (last x y) := by
  refine ⟨2, 8, rfl, rfl, by decide, ?_⟩
  rintro addr ⟨n, hn, rfl⟩
  change n < 2 at hn
  change 254 + n < 256
  omega

def drawCommands : List Instr := [.drawExtmask, .drawPlusmask, .drawOverwrite, .drawErase, .drawSelfmask]

theorem clear0_inv : clear0.Inv := by decide +kernel

theorem witness_EncodedCommandsDecodeBack :
    ∀ i ∈ drawCommands ++ [.pixelClr, .pixelSet, .fbClear, .collide], i.wf = true := by decide

theorem witness_DrawModeIsTheFunctionField :
    ((0x10#32).toNat / 16 % 16 = 1 ∧ decode 0x10#32 = .ok .drawExtmask ∧ Instr.drawMode .drawExtmask = some .extMask)
      ∧ ((0xFFFFFF14#32).toNat / 16 % 16 = 1 ∧ decode 0xFFFFFF14#32 = .ok .drawSelfmask
        ∧ Instr.drawMode .drawSelfmask = some .selfMask)
      ∧ ((0x15#32).toNat / 16 % 16 = 1 ∧ 5 ≤ (0x15#32).toNat % 16)
      ∧ (0x1F#32).toNat / 16 % 16 = 1 ∧ 5 ≤ (0x1F#32).toNat % 16 :=
  ⟨⟨rfl, by decide, rfl⟩, ⟨rfl, by decide, rfl⟩, ⟨rfl, by simp⟩, rfl, by simp⟩

theorem witness_PixelValueIsFunctionBit :
    (∀ d ∈ [0x20#32, 0x21#32], d.toNat / 16 % 16 = 2 ∧ d.toNat % 16 < 2)
      ∧ (∀ d ∈ [0x22#32, 0x2F#32], d.toNat / 16 % 16 = 2 ∧ 2 ≤ d.toNat % 16)
      ∧ (∀ d ∈ [0x30#32, 0x31#32, 0x3F#32], d.toNat / 16 % 16 = 3)
      ∧ (∀ d ∈ [0x40#32, 0x41#32, 0x4F#32], d.toNat / 16 % 16 = 4)
      ∧ ∀ d ∈ [0x00#32, 0x0F#32, 0x50#32, 0xFF#32], d.toNat / 16 % 16 = 0 ∨ 5 ≤ d.toNat / 16 % 16 := by simp

theorem witness_ListingLinesAssemble :
    (∀ v ∈ [-2 ^ 31, 0, 2 ^ 32 - 1], (Line.wr .cmd v).wf = true ∧ (Line.wr (.operand .r2h) v).wf = true)
      ∧ (Line.fb 0).wf = true ∧ (Line.fb 8191).wf = true := by decide

theorem witness_InvariantHoldsAfterReset :
    Platform.wf ⟨1, 1, []⟩ ∧ Platform.wf ⟨32, 2 ^ 32, [(0, 1), (2 ^ 32 - 1, 0xFF)]⟩ ∧ platform.wf := by
  decide +kernel

theorem witness_EveryStepKeepsInvariant :
    ∀ tr ∈ [Transaction.regWrite 0x04 0xFFFFFFFF, .regWrite 0x06 0xFFFFFFFF, .regWrite 0x00 0x21, .regRead 0x0F,
        .fbRead 8191], (sends [tr]).Inv ∧ ∃ t, step (sends [tr]) = .next t :=
  fun tr h => ⟨clear0_inv, exists_of_completes (by revert tr; decide +kernel)⟩

theorem witness_BitmapMemoryIsConstant :
    ∃ s t, s.platform = platform ∧ step s = .next t ∧ t.fb ≠ s.fb :=
  ⟨(State.at clear0 0 0 0x10 0 0 0).setPending [.regWrite 0x00 0x12], _, rfl,
    eq_stateOr clear0 (by decide +kernel), by decide +kernel⟩

theorem witness_StepRunsTheDecodedCommand :
    ∀ i ∈ drawCommands ++ [.pixelClr, .pixelSet, .fbClear, .collide],
      (sends [.regWrite 0x00 (encode i)]).pending = [.regWrite 0x00#6 (encode i)]
        ∧ decode (encode i) = .ok i ∧ i.wf = true := by decide +kernel

theorem witness_StepTakesOneTransaction :
    (sends []).pending = []
      ∧ ∀ tr ∈ [Transaction.regWrite 0x00 0x30, .regRead 0x00, .regRead 0x0F, .fbRead 0, .fbRead 8191],
        (sends [tr, .fbRead 0]).pending = [tr, .fbRead 0] ∧ ∃ t, step (sends [tr, .fbRead 0]) = .next t :=
  ⟨rfl, fun tr h => ⟨rfl, exists_of_completes (by revert tr; decide +kernel)⟩⟩

/-- The idle step; a register read at the last defined and the first reserved address; the CMD write of COLLIDE, of a
defined DRAW, of a DRAW beyond memory and of a reserved code. -/
theorem witness_StepCompletesExactlyWhenDefined :
    (∃ t, step (sends []) = .next t)
      ∧ (∃ t, step (sends [.regRead 0x0F]) = .next t) ∧ transactionDefined (.regRead 0x0F) (sends [.regRead 0x0F])
      ∧ ¬ (∃ t, step (sends [.regRead 0x10]) = .next t)
      ∧ ¬ transactionDefined (.regRead 0x10) (sends [.regRead 0x10])
      ∧ (∃ t, step (sends [.regWrite 0x00 0x40]) = .next t)
      ∧ transactionDefined (.regWrite 0x00 0x40) (sends [.regWrite 0x00 0x40])
      ∧ (∃ t, step ((last 0 0).setPending [.regWrite 0x00 0x12]) = .next t)
      ∧ transactionDefined (.regWrite 0x00 0x12) ((last 0 0).setPending [.regWrite 0x00 0x12])
      ∧ ¬ (∃ t, step ((State.at clear0 0 0 0x70 71 0 0).setPending [.regWrite 0x00 0x12]) = .next t)
      ∧ ¬ (∃ t, step (sends [.regWrite 0x00 0x15]) = .next t)
      ∧ ¬ transactionDefined (.regWrite 0x00 0x15) (sends [.regWrite 0x00 0x15]) := by
  refine ⟨⟨_, rfl⟩, ⟨_, rfl⟩, ?_, not_exists_of_refuses (by decide +kernel), ?_, ⟨_, rfl⟩, ?_,
    exists_of_completes (by decide +kernel), ?_, not_exists_of_refuses (by decide +kernel),
    not_exists_of_refuses (by decide +kernel), ?_⟩
  · show (0x0F#6).toNat < 0x10
    decide
  · show ¬ (0x10#6).toNat < 0x10
    decide
  · exact ⟨by decide, fun _ => ⟨.collide, by decide, nofun⟩⟩
  · refine ⟨by decide, fun _ => ⟨.drawOverwrite, by decide, ?_⟩⟩
    rintro _ ⟨⟩
    exact last_defined 0 0
  · rintro ⟨-, h⟩
    obtain ⟨i, hd, -⟩ := h rfl
    rw [show decode 0x15 = .error (.reservedCommand 0x15) by decide] at hd
    cases hd

theorem witness_RegisterWriteTransaction :
    (∀ k < 64, (sends [.regWrite (BitVec.ofNat 6 k) 0xFFFFFFF8]).pending
        = .regWrite (BitVec.ofNat 6 k) 0xFFFFFFF8 :: [] ∧ (BitVec.ofNat 6 k).toNat = k)
      ∧ decode 0xFFFFFF40#32 = .ok .collide ∧ 0x10 ≤ (0x10#6).toNat ∧ 0x10 ≤ (0x3F#6).toNat := by decide +kernel

theorem witness_RegisterReadTransaction :
    ∀ k < 64, (sends [.regRead (BitVec.ofNat 6 k)]).pending = .regRead (BitVec.ofNat 6 k) :: []
      ∧ (BitVec.ofNat 6 k).toNat = k := by decide +kernel

theorem witness_ScanOutRead :
    ∀ e ∈ [(0#13, 0, 0), (127#13, 127, 0), (128#13, 0, 1), (8191#13, 127, 63)],
      (sends [.fbRead e.1]).pending = .fbRead e.1 :: [] ∧ e.2.1 < 128 ∧ e.2.2 < 64
        ∧ e.1.toNat = e.2.2 * 128 + e.2.1 := by decide +kernel

theorem witness_ReservedTransactionsAreRefused :
    (sends [.regWrite 0x00 0x15]).pending = .regWrite 0x00#6 0x15#32 :: []
      ∧ (sends [.regWrite 0x10 0x15]).pending = .regWrite 0x10#6 0x15#32 :: []
      ∧ (sends [.regRead 0x3F]).pending = .regRead 0x3F#6 :: [] := ⟨rfl, rfl, rfl⟩

theorem witness_PixelClrResult :
    (∀ e ∈ [(0, 0), (127, 63)], inBounds (State.at ones0 e.1 e.2 0 0 0 0).regs.posx.toInt
        (State.at ones0 e.1 e.2 0 0 0 0).regs.posy.toInt)
      ∧ ∀ e ∈ [(-1, 0), (128, 0), (0, -1), (0, 64), (-32768, 32767)],
        ¬ inBounds (State.at ones0 e.1 e.2 0 0 0 0).regs.posx.toInt
          (State.at ones0 e.1 e.2 0 0 0 0).regs.posy.toInt := by decide +kernel

theorem witness_PixelSetResult :
    (∀ e ∈ [(0, 0), (127, 63)], inBounds (State.at clear0 e.1 e.2 0 0 0 0).regs.posx.toInt
        (State.at clear0 e.1 e.2 0 0 0 0).regs.posy.toInt)
      ∧ ∀ e ∈ [(-1, 0), (128, 0), (0, -1), (0, 64), (-32768, 32767)],
        ¬ inBounds (State.at clear0 e.1 e.2 0 0 0 0).regs.posx.toInt
          (State.at clear0 e.1 e.2 0 0 0 0).regs.posy.toInt := by decide +kernel

theorem witness_PixelCommandLaws :
    (∀ i ∈ [Instr.pixelClr, Instr.pixelSet], ∃ t, exec i (State.at clear0 127 63 0 0 0 0) = .next t)
      ∧ (∃ s t u t' u' : State, inBounds s.regs.posx.toInt s.regs.posy.toInt ∧ exec .pixelSet s = .next t
        ∧ exec .pixelClr t = .next u ∧ exec .pixelClr s = .next t' ∧ exec .pixelSet t' = .next u')
      ∧ ∃ (s t u t' u' : State) (g g' : OperandRegs), ¬ (g.posx = g'.posx ∧ g.posy = g'.posy)
        ∧ exec .pixelClr { s with regs := g } = .next t ∧ exec .pixelSet { t with regs := g' } = .next u
        ∧ exec .pixelSet { s with regs := g' } = .next t' ∧ exec .pixelClr { t' with regs := g } = .next u' :=
  ⟨exists_of_all (by decide +kernel),
    ⟨State.at clear0 127 63 0 0 0 0, _, _, _, _, by decide +kernel, rfl, rfl, rfl, rfl⟩,
    ⟨ones0, _, _, _, _, { OperandRegs.zero with posx := 127, posy := 63 }, OperandRegs.zero, by decide, rfl, rfl, rfl, rfl⟩⟩

theorem witness_FbClearResult :
    ∀ i ∈ drawCommands ++ [.pixelClr, .pixelSet, .collide], i ≠ .fbClear := by decide

theorem witness_DrawExtmaskResult :
    masked.platform.memRead masked.regs.bmp.toNat = some 4 ∧ masked.platform.memRead (masked.regs.bmp.toNat + 1) = some 8
      ∧ (8#8).toNat % 8 = 0
      ∧ ∀ n < (4#8).toNat * ((8#8).toNat / 8),
        masked.regs.bmp.toNat + 2 + masked.regs.frm.toNat * ((4#8).toNat * ((8#8).toNat / 8)) + n
            < masked.platform.romSize
          ∧ masked.regs.msk.toNat + masked.regs.mfrm.toNat * ((4#8).toNat * ((8#8).toNat / 8)) + n
            < masked.platform.romSize := by decide +kernel

/-- Frame 50 of the Combined Bitmap at 0x30 lies in memory, clipped at the corner. -/
def combined : State := State.at clear0 127 62 0x30 50 0 0

theorem witness_DrawPlusmaskResult :
    combined.platform.memRead combined.regs.bmp.toNat = some 2
      ∧ combined.platform.memRead (combined.regs.bmp.toNat + 1) = some 8 ∧ (8#8).toNat % 8 = 0
      ∧ ∀ n < 2 * (2#8).toNat * ((8#8).toNat / 8),
        combined.regs.bmp.toNat + 2 + combined.regs.frm.toNat * (2 * (2#8).toNat * ((8#8).toNat / 8)) + n
          < combined.platform.romSize := by decide +kernel

/-- The hypotheses that the results of the last three modes share. -/
def imageHypotheses (s : State) (w h : Byte) : Prop :=
  s.platform.memRead s.regs.bmp.toNat = some w ∧ s.platform.memRead (s.regs.bmp.toNat + 1) = some h ∧ h.toNat % 8 = 0
    ∧ ∀ n < w.toNat * (h.toNat / 8),
      s.regs.bmp.toNat + 2 + s.regs.frm.toNat * (w.toNat * (h.toNat / 8)) + n < s.platform.romSize

theorem witness_DrawOverwriteResult : imageHypotheses (last 127 63) 2 8 := by unfold imageHypotheses; decide +kernel
theorem witness_DrawEraseResult : imageHypotheses (last (-1) (-7)) 2 8 := by unfold imageHypotheses; decide +kernel
theorem witness_DrawSelfmaskResult : imageHypotheses (State.at clear0 0 0 0x20 36 0 0) 3 16 := by
  unfold imageHypotheses; decide +kernel

theorem witness_DrawDefinedExactly :
    Instr.drawMode .drawOverwrite = some .overwrite ∧ (∃ t, exec .drawOverwrite (last 0 0) = .next t)
      ∧ drawDefined .overwrite (last 0 0)
      ∧ ¬ ∃ t, exec .drawOverwrite (State.at clear0 0 0 0x70 71 0 0) = .next t :=
  ⟨rfl, exists_of_completes (by decide +kernel), last_defined 0 0, not_exists_of_refuses (by decide +kernel)⟩

theorem witness_UndefinedDrawsAreRefused :
    Instr.drawMode .drawOverwrite = some .overwrite
      ∧ (let s := State.at clear0 0 0 0xFF 0 0 0; s.platform.romSize ≤ s.regs.bmp.toNat + 1)
      ∧ (let s := State.at clear0 0 0 0x80 0 0 0
        s.platform.memRead s.regs.bmp.toNat = some 2 ∧ s.platform.memRead (s.regs.bmp.toNat + 1) = some 12
          ∧ (12#8).toNat % 8 ≠ 0)
      ∧ (let s := State.at clear0 0 0 0x70 71 0 0
        s.platform.memRead s.regs.bmp.toNat = some 2 ∧ s.platform.memRead (s.regs.bmp.toNat + 1) = some 8
          ∧ (8#8).toNat % 8 = 0
          ∧ ∃ addr, frameAddress .overwrite (drawOperands s.regs) (2#8).toNat (8#8).toNat addr
            ∧ s.platform.romSize ≤ addr) := by
  refine ⟨rfl, by decide +kernel, by decide +kernel, by decide +kernel, by decide +kernel, by decide, 256, ⟨0, ?_⟩, ?_⟩ <;>
    decide +kernel

theorem witness_DrawDefinednessIgnoresPosition :
    ∀ i ∈ drawCommands, i.drawMode ≠ none ∧ ∃ t, exec i (State.at clear0 0 0 0x70 0 0x72 0) = .next t :=
  fun i hi => ⟨by revert i; decide, exists_of_all (l := drawCommands) (by decide +kernel) i hi⟩

theorem witness_DefinedDrawReadsOnlyBitmapMemory :
    drawDefined .extMask (last 0 0) ∧ DrawMode.extMask ≠ .plusMask ∧ drawDefined .plusMask combined
      ∧ header (last 0 0).platform (last 0 0).regs.bmp.toNat = some (2, 8)
      ∧ header combined.platform combined.regs.bmp.toNat = some (2, 8) ∧ 1 < 2 ∧ 7 < 8 := by
  refine ⟨⟨2, 8, by decide +kernel, by decide +kernel, by decide, ?_⟩, by decide,
    ⟨2, 8, by decide +kernel, by decide +kernel, by decide, ?_⟩, by decide +kernel, by decide +kernel, by decide, by decide⟩
  · rintro addr (⟨n, hn, rfl⟩ | ⟨n, hn, rfl⟩) <;> change n < 2 at hn <;> change 254 + n < 256 <;> omega
  · rintro addr ⟨n, hn, rfl⟩
    change n < 4 at hn
    change 250 + n < 256
    omega

theorem witness_FrameAddressesFitThirtyThreeBits :
    frameAddress .plusMask (drawOperands { OperandRegs.zero with bmp := 0xFFFFFFFF, frm := 0xFF }) (0xFF#8).toNat
      (0xF8#8).toNat (2 ^ 32 - 1 + 2 + 255 * 2 * 255 * 31 + (2 * 255 * 31 - 1)) :=
  ⟨2 * 255 * 31 - 1, by decide, rfl⟩

theorem witness_DrawFrame :
    ∀ i ∈ drawCommands, i.drawMode ≠ none
      ∧ header (State.at clear0 (-2) 60 0x60 2 0x40 1).platform (State.at clear0 (-2) 60 0x60 2 0x40 1).regs.bmp.toNat
        = some (4, 8)
      ∧ ∃ t, exec i (State.at clear0 (-2) 60 0x60 2 0x40 1) = .next t :=
  fun i hi => ⟨by revert i; decide, by decide +kernel, exists_of_all (l := drawCommands) (by decide +kernel) i hi⟩

/-- The addresses 0x00 and 0x01 hold 0 and 0; the header at 0x0F is 0 by 8, the one at 0x7A is 5 by 0. -/
theorem witness_EmptyBitmapDrawsNothing :
    (∀ i ∈ drawCommands, i.drawMode ≠ none)
      ∧ (let s := State.at clear0 0 0 0x00 255 0xFFFF 255
        s.platform.memRead s.regs.bmp.toNat = some 0 ∧ s.platform.memRead (s.regs.bmp.toNat + 1) = some 0
          ∧ (0#8).toNat % 8 = 0)
      ∧ (let s := State.at clear0 0 0 0x0F 255 0xFFFF 255
        s.platform.memRead s.regs.bmp.toNat = some 0 ∧ s.platform.memRead (s.regs.bmp.toNat + 1) = some 8
          ∧ (8#8).toNat % 8 = 0)
      ∧ (let s := State.at clear0 0 0 0x7A 255 0xFFFF 255
        s.platform.memRead s.regs.bmp.toNat = some 5 ∧ s.platform.memRead (s.regs.bmp.toNat + 1) = some 0) := by
  decide +kernel

theorem witness_DrawOutsideChangesNothing :
    Instr.drawMode .drawOverwrite = some .overwrite
      ∧ ∀ e ∈ [((128 : Int), (0 : Int)), (-2, 0), (0, 64), (0, -8)],
        drawDefined .overwrite (last e.1 e.2) ∧ header (last e.1 e.2).platform (last e.1 e.2).regs.bmp.toNat = some (2, 8)
          ∧ (128 ≤ (last e.1 e.2).regs.posx.toInt ∨ (last e.1 e.2).regs.posx.toInt + 2 ≤ 0
            ∨ 64 ≤ (last e.1 e.2).regs.posy.toInt ∨ (last e.1 e.2).regs.posy.toInt + 8 ≤ 0) :=
  ⟨rfl, fun e he => ⟨last_defined e.1 e.2, rfl, by revert e; decide +kernel⟩⟩

theorem witness_DrawTwiceIsDrawOnce :
    ∀ i ∈ drawCommands, i.drawMode ≠ none ∧ ∃ t, exec i (State.at ones0 (-2) 60 0x60 2 0x40 1) = .next t :=
  fun i hi => ⟨by revert i; decide, exists_of_all (l := drawCommands) (by decide +kernel) i hi⟩

theorem witness_SelfMaskThenErase :
    header masked.platform masked.regs.bmp.toNat = some (4, 8) ∧ (∃ t, exec .drawSelfmask masked = .next t)
      ∧ ∃ t, exec .drawErase masked = .next t :=
  ⟨by decide +kernel, exists_of_completes (by decide +kernel), exists_of_completes (by decide +kernel)⟩

/-- The mask at 0x40 holds frames of 0x0F and, from 0x48, of 0xFF; the bytes from 0xF0 on are 0. -/
theorem witness_ExtmaskWithUniformMask :
    (let s := State.at clear0 0 0 0x60 0 0x40 2;
      header s.platform s.regs.bmp.toNat = some (4, 8)
        ∧ (∀ n < 4 * (8 / 8), s.regs.msk.toNat + s.regs.mfrm.toNat * (4 * (8 / 8)) + n < s.platform.romSize)
        ∧ ∀ n < 4 * (8 / 8),
          s.platform.byteAt (s.regs.msk.toNat + s.regs.mfrm.toNat * (4 * (8 / 8)) + n) = 0xFF#8)
      ∧ (∀ n < 4 * (8 / 8),
          masked.platform.byteAt (masked.regs.msk.toNat + masked.regs.mfrm.toNat * (4 * (8 / 8)) + n) = 0x00#8)
      ∧ drawDefined .extMask masked := by
  refine ⟨by decide +kernel, by decide +kernel, 4, 8, by decide +kernel, by decide +kernel, by decide, ?_⟩
  rintro addr (⟨n, hn, rfl⟩ | ⟨n, hn, rfl⟩)
  · change n < 4 at hn
    change 250 + n < 256
    omega
  · change n < 4 at hn
    change 252 + n < 256
    omega

theorem witness_ImageAsItsOwnMask :
    (last 0 0).regs.msk.toNat = (last 0 0).regs.bmp.toNat + 2 ∧ (last 0 0).regs.mfrm = (last 0 0).regs.frm := by
  decide +kernel

/-- Inside: the first and the last index of the 3 by 16 corner; outside: the ones just right of it and just below it. -/
theorem witness_OverwriteRoundTrip :
    (∃ s t : State, s.regs.posx = 0 ∧ s.regs.posy = 0 ∧ header s.platform s.regs.bmp.toNat = some (3, 16) ∧ 3 ≤ WIDTH
      ∧ 16 ≤ HEIGHT ∧ exec .drawOverwrite s = .next t)
      ∧ ((0#13).toNat % 128 < 3 ∧ (0#13).toNat / 128 < 16) ∧ ((1922#13).toNat % 128 < 3 ∧ (1922#13).toNat / 128 < 16)
      ∧ ¬ ((3#13).toNat % 128 < 3 ∧ (3#13).toNat / 128 < 16)
      ∧ ¬ ((2048#13).toNat % 128 < 3 ∧ (2048#13).toNat / 128 < 16) :=
  ⟨⟨State.at ones0 0 0 0x20 1 0 0, _, by decide +kernel, by decide +kernel, by decide +kernel, by decide, by decide,
    eq_stateOr clear0 (by decide +kernel)⟩, by simp⟩

theorem witness_DrawResultIsOrderFree :
    [(1, 0), (0, 1), (1, 1), (0, 0)].Perm (drawOrder 2 2) ∧ (0 : Nat) < WIDTH ∧ (63 : Nat) < HEIGHT := by decide

theorem witness_DrawComposition :
    ∀ i ∈ [Instr.drawSelfmask, Instr.drawErase], ∃ (s t u t' u' : State) (g g' : OperandRegs),
      exec i { s with regs := g } = .next t ∧ exec i { t with regs := g' } = .next u
        ∧ exec i { s with regs := g' } = .next t' ∧ exec i { t' with regs := g } = .next u' := by
  have h : ∀ i ∈ [Instr.drawSelfmask, Instr.drawErase],
      let a := State.at clear0 0 0 0x10 0 0 0
      let b := State.at clear0 3 2 0x20 1 0 0
      completes (exec i a) = true ∧ completes (exec i { stateOr a (exec i a) with regs := b.regs }) = true
        ∧ completes (exec i b) = true ∧ completes (exec i { stateOr b (exec i b) with regs := a.regs }) = true := by
    decide +kernel
  intro i hi
  obtain ⟨h1, h2, h3, h4⟩ := h i hi
  exact ⟨clear0, _, _, _, _, (State.at clear0 0 0 0x10 0 0 0).regs, (State.at clear0 3 2 0x20 1 0 0).regs,
    eq_stateOr _ h1, eq_stateOr clear0 h2, eq_stateOr _ h3, eq_stateOr clear0 h4⟩

theorem witness_FramesLieInsideTheExtent :
    254 < 255 ∧ 0 < frameByteSize 1 8 ∧ 255 * 31 - 1 < frameByteSize 255 248
      ∧ 2 * 255 * 31 - 1 < frameByteSizeCombined 255 248 := by decide

theorem witness_DrawUnderPreconditionsCompletes :
    callerPreconditions .extMask (State.at clear0 0 0 0x60 1 0x40 3) 2 4 4 8
      ∧ callerPreconditions .plusMask (State.at clear0 0 0 0x30 1 0 0) 2 0 2 8
      ∧ (∀ mode ∈ [DrawMode.overwrite, .erase, .selfMask],
        callerPreconditions mode (State.at clear0 0 0 0x20 1 0 0) 2 0 3 16) := by
  refine ⟨⟨⟨rfl, rfl, by decide⟩, by decide, ?_, by decide⟩, ⟨⟨rfl, rfl, by decide⟩, by decide⟩, fun mode hm => ?_⟩
  · unfold maskArrayAt
    decide
  have h : imageBitmapAt (State.at clear0 0 0 0x20 1 0 0).platform (State.at clear0 0 0 0x20 1 0 0).regs.bmp.toNat 2 3 16
      ∧ (State.at clear0 0 0 0x20 1 0 0).regs.frm.toNat < 2 := ⟨⟨rfl, rfl, by decide⟩, by decide⟩
  cases mode <;> first | exact h | (simp at hm)

theorem witness_CollideCornerCases :
    (⟨0, 0, 10, 10⟩ : Rect).w ≠ 0 ∧ (⟨0, 0, 10, 10⟩ : Rect).h ≠ 0 ∧ (⟨5, 5, 0, 3⟩ : Rect).w = 0
      ∧ (⟨5, 5, 3, 0⟩ : Rect).h = 0 := by decide

theorem witness_StatusReadAfterCollide :
    (0x40#32).toNat % 256 = 0x40 ∧ (0xFFFFFF40#32).toNat % 256 = 0x40
      ∧ ∀ d : Data, (sends [.regWrite 0x00 d, .regRead 0x01, .fbRead 0]).pending
        = .regWrite 0x00#6 d :: .regRead 0x01#6 :: [.fbRead 0] := ⟨rfl, rfl, fun _ => rfl⟩

theorem witness_StatusRegister :
    (∃ t, let s := (rects 0 0 10 10 5 5 10 10).setPending [.regWrite 0x00 0x40]
        step s = .next t ∧ t.hit ≠ s.hit)
      ∧ (sends [.regWrite 0x01 0xFFFFFFFF]).pending = .regWrite 0x01#6 0xFFFFFFFF#32 :: []
      ∧ (sends [.regWrite 0x00 0xFFFFFF40]).pending = .regWrite 0x00#6 0xFFFFFF40#32 :: []
      ∧ decode 0xFFFFFF40#32 = .ok .collide
      ∧ (sends [.regRead 0x01]).pending = .regRead 0x01#6 :: [] :=
  ⟨⟨_, rfl, by decide +kernel⟩, rfl, rfl, by decide, rfl⟩

theorem witness_FrameBufferWrittenOnlyByItsCommands :
    ∃ s t : State, step s = .next t ∧ t.fb ≠ s.fb :=
  ⟨(State.at clear0 127 63 0 0 0 0).setPending [.regWrite 0x00 0x21], _, rfl, by decide +kernel⟩

theorem witness_OperandRegisterWrittenOnlyByItsAddress :
    ∃ s t : State, step s = .next t ∧ t.regs.read .r2h ≠ s.regs.read .r2h :=
  ⟨sends [.regWrite 0x0F 0xFFFF], _, rfl, by decide +kernel⟩

theorem witness_CommandsWriteOnlyTheirState :
    ∀ i ∈ drawCommands ++ [.pixelClr, .pixelSet, .fbClear, .collide],
      ∃ t, exec i (State.at clear0 0 0 0x70 0 0x72 0) = .next t := exists_of_all (by decide +kernel)

/-- Two states that differ in HIT and in a register the command does not read. -/
theorem witness_CommandsReadOnlyTheirOperands :
    let s := last 0 0
    let s' := (s.setHit true).setRegs { s.regs with r2h := 1 }
    s.platform = s'.platform ∧ s.fb = s'.fb ∧ (∀ r ∈ operandsRead .drawExtmask, s.regs.read r = s'.regs.read r)
      ∧ (∃ t, exec .drawExtmask s = .next t)
      ∧ let u := State.at clear0 0 0 0x80 0 0 0
        (∀ r ∈ operandsRead .drawExtmask, u.regs.read r = ((u.setHit true).setPending [.fbRead 0]).regs.read r)
          ∧ ∃ r, exec .drawExtmask u = .refused r := by
  refine ⟨rfl, rfl, by decide +kernel, exists_of_completes (by decide +kernel), fun _ _ => rfl, .heightNotMultipleOf8, ?_⟩
  exact (draw_eq_refused (mode := .extMask) (s := State.at clear0 0 0 0x80 0 0 0)).2
    (.inr ⟨2, 12, by decide +kernel, .inl ⟨by decide, rfl⟩⟩)

theorem witness_OperandAssembly : (last 32767 (-32768)).Inv := by decide +kernel

theorem witness_PseudoDrawIsTheCall :
    clear0.Inv
      ∧ (∀ c ∈ [Pseudo.drawPlusmask (-32768) 32767 65535 255, .drawOverwrite (-32768) 32767 65535 255,
          .drawErase (-32768) 32767 65535 255, .drawSelfmask (-32768) 32767 65535 255,
          .drawExtmask (-32768) 32767 65535 255 65535 255],
        c.wf platform.aw = true ∧ (sends (c.expand.map Line.assemble ++ [.fbRead 0])).Inv
          ∧ (sends (c.expand.map Line.assemble ++ [.fbRead 0])).pending = c.expand.map Line.assemble ++ [.fbRead 0]) :=
  ⟨clear0_inv, fun c hc => ⟨by revert c; decide, clear0_inv, rfl⟩⟩

theorem witness_PseudoPixelAndClear :
    ∀ c ∈ [Pseudo.pixel 0 63 true, .pixel (-32768) 32767 false, .clear],
      c.wf platform.aw = true
        ∧ (sends (c.expand.map Line.assemble ++ [])).pending = c.expand.map Line.assemble ++ [] :=
  fun c hc => ⟨by revert c; decide, rfl⟩

theorem witness_PseudoCollideIsTheCall :
    let c := Pseudo.collide (-32768) 32767 0 65535 32767 (-32768) 65535 1
    c.wf platform.aw = true
      ∧ (sends (c.expand.map Line.assemble ++ [.fbRead 0])).pending = c.expand.map Line.assemble ++ [.fbRead 0] :=
  ⟨by decide, rfl⟩

end Sys2Proof.Tests
end

section
/-! What every step keeps (00_scope.md): the invariant, from reset on (R7, R27, R29), and the host's side of a
transaction, one taken and at most one value returned (R14, R61, R80). -/

namespace Sys2Proof.Machine

/-! ### The frame of a command and of a register write -/

/-- No command writes an operand register, a parameter of the platform or the host's side (R44). -/
theorem exec_frame {i : Instr} {s t : State} (h : exec i s = .next t) :
    t.regs = s.regs ∧ t.platform = s.platform ∧ t.pending = s.pending ∧ t.replies = s.replies := by
  obtain ⟨-, rfl⟩ | ⟨-, fb, rfl⟩ := exec_next_cases h
  · exact ⟨rfl, rfl, rfl, rfl⟩
  · exact ⟨rfl, rfl, rfl, rfl⟩

/-- A register write issues nothing further and hands the host no value (R40, R80). -/
theorem regWrite_host_frame {a : RegAddr} {d : Data} {s t : State} (h : regWrite a d s = .next t) :
    t.pending = s.pending ∧ t.replies = s.replies := by
  obtain ⟨-, i, -, he⟩ | ⟨-, rfl⟩ | ⟨r, -, rfl⟩ := regWrite_next_cases h
  · obtain ⟨-, -, hpending, hreplies⟩ := exec_frame he
    exact ⟨hpending, hreplies⟩
  · exact ⟨rfl, rfl⟩
  · exact ⟨State.writeOperand_pending s r d, State.writeOperand_replies s r d⟩

/-! ### The invariant -/

/-- The invariant speaks of the registers and the platform alone, so whatever leaves both as they were keeps it. -/
theorem State.Inv.of_frame {s t : State} (hs : s.Inv) (hregs : t.regs = s.regs) (hplatform : t.platform = s.platform) :
    t.Inv := by
  unfold State.Inv
  rwa [hregs, hplatform]

/-- A write to BMP or MSK stores `AW` bits (R27, R29, R40). -/
theorem State.Inv.writeOperand {s : State} (hs : s.Inv) (r : OperandReg) (d : Data) : (s.writeOperand r d).Inv := by
  obtain ⟨hwf, hbmp, hmsk⟩ := hs
  exact ⟨hwf, OperandRegs.bmp_lt_write r d hbmp, OperandRegs.msk_lt_write r d hmsk⟩

theorem transact_keeps_inv {tr : Transaction} {s t : State} (hs : s.Inv) (h : transact tr s = .next t) : t.Inv := by
  obtain ⟨d, i, -, -, he⟩ | ⟨d, -, rfl⟩ | ⟨d, r, -, rfl⟩ | ⟨a, -, d, rfl⟩ | ⟨n, -, rfl⟩ := transact_next_cases h
  · obtain ⟨hregs, hplatform, -, -⟩ := exec_frame he
    exact hs.of_frame hregs hplatform
  · exact hs
  · exact hs.writeOperand r d
  · exact hs.of_frame (State.reply_regs _ _) (State.reply_platform _ _)
  · exact hs.of_frame (State.reply_regs _ _) (State.reply_platform _ _)

/-- On a well-formed platform every buffer's state after reset meets the invariant: BMP and MSK hold 0 (R45). -/
theorem State.powerOn_inv {p : Platform} (fb : FrameBuffer) (hp : p.wf) : (State.powerOn p fb).Inv :=
  ⟨hp, Nat.two_pow_pos _, Nat.two_pow_pos _⟩

end Sys2Proof.Machine

open Sys2Proof Sys2Proof.Machine

/-- Settles O10: a step waits, or completes one transaction on the state without it, and a transaction changes BMP and
MSK only by a register write of `AW` bits. -/
theorem everyStepKeepsInvariant : Obligations.EveryStepKeepsInvariant := by
  intro s t hs h
  obtain ⟨-, rfl⟩ | ⟨tr, rest, -, ht⟩ := step_next_cases h
  · exact hs
  · have hrest : (s.setPending rest).Inv :=
      hs.of_frame (State.setPending_regs s rest) (State.setPending_platform s rest)
    exact transact_keeps_inv hrest ht

/-- Settles O13, by the kind of the transaction taken. -/
theorem stepTakesOneTransaction : Obligations.StepTakesOneTransaction := by
  refine ⟨fun s => step_of_idle, fun s t tr rest hp h => ?_⟩
  rw [step_of_pending hp] at h
  cases tr with
  | regWrite a d => exact regWrite_host_frame h
  | regRead a =>
    obtain ⟨reg, -, rfl⟩ := regRead_next_cases h
    exact ⟨rfl, busValue (s.setPending rest) reg, rfl⟩
  | fbRead n =>
    cases h
    exact ⟨rfl, fbRead s.fb n, rfl⟩

/-- Settles O9: BMP and MSK are 0 after reset, and the model's own platform is well formed. -/
theorem invariantHoldsAfterReset : Obligations.InvariantHoldsAfterReset :=
  ⟨State.powerOn_inv Config.resetFb Config.resetPlatform_wf, fun _ fb hp => State.powerOn_inv fb hp⟩

end

section
/-! The state and who may write it (10_state.md): the register map (R25), the two register transactions (R40, R41), and
what each command reads and writes (R44). -/

namespace Sys2Proof.Machine

/-! ### The register map -/

/-- The operand registers in the order of their addresses (R25). -/
def operandRegisters : List OperandReg :=
  [.posx, .posy, .bmp, .frm, .msk, .mfrm, .r1x, .r1y, .r1w, .r1h, .r2x, .r2y, .r2w, .r2h]

/-- Every register in the order of its address (R25, R38, R39). -/
def registers : List RegName := .cmd :: .status :: operandRegisters.map .operand

theorem mem_operandRegisters (r : OperandReg) : r ∈ operandRegisters := by cases r <;> decide

theorem mem_registers (reg : RegName) : reg ∈ registers := by
  cases reg with
  | cmd => exact .head _
  | status => exact .tail _ (.head _)
  | operand r => exact .tail _ (.tail _ (List.mem_map_of_mem (mem_operandRegisters r)))

/-- An address with the number of a register's address decodes to that register (R25, R59). -/
theorem decodeRegister_of_toNat_eq {a : RegAddr} {reg : RegName} (h : a.toNat = (registerAddress reg).toNat) :
    decodeRegister a = some reg :=
  decodeRegister_eq_some.2 (BitVec.eq_of_toNat_eq h)

/-- The reserved addresses are 0x10 to 0x3F (R42). -/
theorem decodeRegister_eq_none : ∀ a : RegAddr, decodeRegister a = none ↔ 0x10 ≤ a.toNat := by decide

/-! ### A step that takes a register transaction, by the register addressed -/

section
variable {s : State} {a : RegAddr} {d : Data} {rest : List Transaction}

/-- A write to CMD executes the command its data decode to (R39, R40). -/
theorem step_of_command_write {i : Instr} (hp : s.pending = .regWrite a d :: rest)
    (ha : decodeRegister a = some .cmd) (hd : decode d = .ok i) : step s = exec i (s.setPending rest) := by
  simp only [step_of_pending hp, transact, regWrite, ha, writeCommand, hd]

/-- A write to STATUS has no effect (R38, R40). -/
theorem step_of_status_write (hp : s.pending = .regWrite a d :: rest) (ha : decodeRegister a = some .status) :
    step s = .next (s.setPending rest) := by
  simp only [step_of_pending hp, transact, regWrite, ha]

/-- A write to an operand register stores there (R40). -/
theorem step_of_operand_write {r : OperandReg} (hp : s.pending = .regWrite a d :: rest)
    (ha : decodeRegister a = some (.operand r)) : step s = .next ((s.setPending rest).writeOperand r d) := by
  simp only [step_of_pending hp, transact, regWrite, ha]

/-- A write to a reserved address is refused (R42). -/
theorem step_of_reserved_write (hp : s.pending = .regWrite a d :: rest) (ha : decodeRegister a = none) :
    step s = .refused (.reservedRegister a) := by
  simp only [step_of_pending hp, transact, regWrite, ha]

theorem busValue_setPending (s : State) (ts : List Transaction) (reg : RegName) :
    busValue (s.setPending ts) reg = busValue s reg := by
  cases reg <;> rfl

/-- A read of a register hands the host its value (R41). -/
theorem step_of_register_read {reg : RegName} (hp : s.pending = .regRead a :: rest)
    (ha : decodeRegister a = some reg) : step s = .next ((s.setPending rest).reply (.data (busValue s reg))) := by
  simp only [step_of_pending hp, transact, regRead, ha, busValue_setPending]

/-- A read of a reserved address is refused (R42). -/
theorem step_of_reserved_read (hp : s.pending = .regRead a :: rest) (ha : decodeRegister a = none) :
    step s = .refused (.reservedRegister a) := by
  simp only [step_of_pending hp, transact, regRead, ha]

end

/-- STATUS reads HIT in bit 0 (R38). -/
theorem statusWord_bit_zero (hit : Bool) : (statusWord hit).getLsbD 0 = hit := by cases hit <;> rfl

/-- STATUS reads 0 in bits 31:1 (R38). -/
theorem statusWord_bit_pos (hit : Bool) {k : Nat} (hk : 1 ≤ k) : (statusWord hit).getLsbD k = false := by
  cases hit
  · exact BitVec.getLsbD_zero
  · have : k ≠ 0 := by omega
    simp [statusWord, BitVec.getLsbD_one, this]

theorem statusWord_toNat (hit : Bool) : (statusWord hit).toNat = cond hit 1 0 := by cases hit <;> rfl

/-! ### Which step may change what -/

/-- The frame buffer and HIT are written by commands alone, so only by a write to CMD (R40, R41, R44). -/
theorem step_runs_command_or_keeps_fb_hit {s t : State} (h : step s = .next t) :
    (∃ d rest i, s.pending = .regWrite 0x00#6 d :: rest ∧ decode d = .ok i ∧ exec i (s.setPending rest) = .next t)
      ∨ (t.fb = s.fb ∧ t.hit = s.hit) := by
  obtain ⟨-, rfl⟩ | ⟨tr, rest, hp, ht⟩ := step_next_cases h
  · exact .inr ⟨rfl, rfl⟩
  · obtain ⟨d, i, rfl, hd, he⟩ | ⟨d, -, rfl⟩ | ⟨d, r, -, rfl⟩ | ⟨a, -, d, rfl⟩ | ⟨n, -, rfl⟩ :=
      transact_next_cases ht
    · exact .inl ⟨d, rest, i, hp, hd, he⟩
    all_goals exact .inr ⟨rfl, rfl⟩

/-- The operand registers are written by register writes alone (R12, R40). -/
theorem step_writes_operand_or_keeps_regs {s t : State} (h : step s = .next t) :
    (∃ r d rest, s.pending = .regWrite (registerAddress (.operand r)) d :: rest
        ∧ t = (s.setPending rest).writeOperand r d)
      ∨ t.regs = s.regs := by
  obtain ⟨-, rfl⟩ | ⟨tr, rest, hp, ht⟩ := step_next_cases h
  · exact .inr rfl
  · obtain ⟨d, i, -, -, he⟩ | ⟨d, -, rfl⟩ | ⟨d, r, rfl, hw⟩ | ⟨a, -, d, rfl⟩ | ⟨n, -, rfl⟩ :=
      transact_next_cases ht
    · exact .inr (exec_frame he).1
    · exact .inr rfl
    · exact .inl ⟨r, d, rest, hp, hw⟩
    · exact .inr rfl
    · exact .inr rfl

/-! ### What a command reads -/

/-- The operands of DRAW and PIXEL are functions of what their registers read as (R86). -/
theorem drawOperands_eq_reads (g : OperandRegs) :
    drawOperands g
      = { x := sext16 ((g.read .posx).setWidth 16), y := sext16 ((g.read .posy).setWidth 16),
          bitmap := (g.read .bmp).toNat, frame := ((g.read .frm).setWidth 8).toNat, mask := (g.read .msk).toNat,
          maskFrame := ((g.read .mfrm).setWidth 8).toNat } := by
  simp [drawOperands, OperandRegs.read]

/-- The first rectangle of COLLIDE is a function of what its registers read as (R86). -/
theorem rect1_eq_reads (g : OperandRegs) :
    rect1 g
      = { x := sext16 ((g.read .r1x).setWidth 16), y := sext16 ((g.read .r1y).setWidth 16),
          w := ((g.read .r1w).setWidth 16).toNat, h := ((g.read .r1h).setWidth 16).toNat } := by
  simp [rect1, OperandRegs.read]

/-- The second rectangle of COLLIDE is a function of what its registers read as (R86). -/
theorem rect2_eq_reads (g : OperandRegs) :
    rect2 g
      = { x := sext16 ((g.read .r2x).setWidth 16), y := sext16 ((g.read .r2y).setWidth 16),
          w := ((g.read .r2w).setWidth 16).toNat, h := ((g.read .r2h).setWidth 16).toNat } := by
  simp [rect2, OperandRegs.read]

/-- The operands a draw mode uses: only DRAW.EXTMASK has an external mask (R29, R30), elsewhere its two are set to 0. -/
def usedOperands : DrawMode → DrawOperands → DrawOperands
  | .extMask, o => o
  | _, o => { o with mask := 0, maskFrame := 0 }

theorem usedOperands_bitmap (mode : DrawMode) (o : DrawOperands) : (usedOperands mode o).bitmap = o.bitmap := by
  cases mode <;> rfl

theorem framesInMemory_usedOperands (mode : DrawMode) (p : Platform) (o : DrawOperands) (w h : Nat) :
    framesInMemory mode p (usedOperands mode o) w h = framesInMemory mode p o w h := by
  cases mode <;> rfl

theorem drawPixel_usedOperands (mode : DrawMode) (p : Platform) (o : DrawOperands) (w h : Nat) :
    drawPixel mode p (usedOperands mode o) w h = drawPixel mode p o w h := by
  cases mode <;> rfl

theorem blit_usedOperands (mode : DrawMode) (p : Platform) (o : DrawOperands) (w h : Nat) (fb : FrameBuffer) :
    blit mode p (usedOperands mode o) w h fb = blit mode p o w h fb := by
  simp only [blit, drawPixel_usedOperands]

/-- DRAW reads no operand outside those its mode uses: on states alike in these, in the platform and in the buffer it
draws the same pixels. -/
theorem draw_next_congr {mode : DrawMode} {s s' t : State} (hplatform : s.platform = s'.platform)
    (hfb : s.fb = s'.fb) (hused : usedOperands mode (drawOperands s.regs) = usedOperands mode (drawOperands s'.regs))
    (hd : draw mode s = .next t) : draw mode s' = .next (s'.setFb t.fb) := by
  obtain ⟨w, h, hh, h8, hf, rfl⟩ := draw_eq_next.1 hd
  rw [← usedOperands_bitmap mode, hused, hplatform, usedOperands_bitmap] at hh
  rw [← framesInMemory_usedOperands, hused, hplatform, framesInMemory_usedOperands] at hf
  refine draw_eq_next.2 ⟨w, h, hh, h8, hf, ?_⟩
  rw [State.setFb_fb, ← blit_usedOperands, hused, hplatform, hfb, blit_usedOperands]

/-- On states alike in the platform and in the operands its mode uses, DRAW is refused for the same reason. -/
theorem draw_refused_congr {mode : DrawMode} {s s' : State} {r : Refusal} (hplatform : s.platform = s'.platform)
    (hused : usedOperands mode (drawOperands s.regs) = usedOperands mode (drawOperands s'.regs))
    (h : draw mode s = .refused r) : draw mode s' = .refused r := by
  rw [draw_eq_refused] at h ⊢
  simp only [← usedOperands_bitmap mode (drawOperands s.regs),
    ← framesInMemory_usedOperands mode _ (drawOperands s.regs), hused, hplatform, usedOperands_bitmap,
    framesInMemory_usedOperands] at h
  exact h

/-- The registers that R44 lists for a DRAW determine the operands its mode uses. -/
theorem usedOperands_congr {i : Instr} {mode : DrawMode} {g g' : OperandRegs} (hm : i.drawMode = some mode)
    (hr : ∀ r ∈ operandsRead i, g.read r = g'.read r) :
    usedOperands mode (drawOperands g) = usedOperands mode (drawOperands g') := by
  cases i <;> cases hm
  all_goals
    simp only [operandsRead, List.forall_mem_cons] at hr
    simp only [usedOperands, drawOperands_eq_reads, hr]

/-- Which pixel a PIXEL command writes is a function of what POSX and POSY read as (R44, R121). -/
theorem writePixelAtPos_congr (b : Bool) {s s' : State} (hfb : s.fb = s'.fb)
    (hx : s.regs.read .posx = s'.regs.read .posx) (hy : s.regs.read .posy = s'.regs.read .posy) :
    (writePixelAtPos b s').fb = (writePixelAtPos b s).fb := by
  simp only [writePixelAtPos, State.setFb_fb, drawOperands_eq_reads, hfb, hx, hy]

/-- The registers that R44 lists for COLLIDE determine its result (R163). -/
theorem collide_congr {g g' : OperandRegs} (hr : ∀ r ∈ operandsRead .collide, g.read r = g'.read r) :
    collide (rect1 g') (rect2 g') = collide (rect1 g) (rect2 g) := by
  simp only [operandsRead, List.forall_mem_cons] at hr
  simp only [rect1_eq_reads, rect2_eq_reads, hr]

/-- The four commands that are no DRAW write alike on states alike in the buffer and in the registers R44 lists. -/
theorem exec_congr_of_no_drawMode {i : Instr} {s s' t t' : State} (hm : i.drawMode = none) (hfb : s.fb = s'.fb)
    (hr : ∀ r ∈ operandsRead i, s.regs.read r = s'.regs.read r) (h : exec i s = .next t)
    (h' : exec i s' = .next t') : t'.fb = t.fb ∧ (i = .collide → t'.hit = t.hit) := by
  cases i <;> cases hm <;> cases h <;> cases h'
  case pixelClr => exact ⟨writePixelAtPos_congr false hfb (hr .posx (by decide)) (hr .posy (by decide)), nofun⟩
  case pixelSet => exact ⟨writePixelAtPos_congr true hfb (hr .posx (by decide)) (hr .posy (by decide)), nofun⟩
  case fbClear => exact ⟨rfl, nofun⟩
  case collide => exact ⟨hfb.symm, fun _ => collide_congr hr⟩

end Sys2Proof.Machine

open Sys2Proof Sys2Proof.Machine

/-- Settles O6: the table lists each register at its own address, and only that address decodes to it. -/
theorem registerAddressMap : Obligations.RegisterAddressMap := by
  refine ⟨fun a r => ?_, decodeRegister_eq_none⟩
  change _ ↔ _ ∈ registers.map fun reg => ((registerAddress reg).toNat, reg)
  rw [decodeRegister_eq_some, List.mem_map]
  constructor
  · rintro rfl
    exact ⟨r, mem_registers r, rfl⟩
  · rintro ⟨reg, -, h⟩
    obtain ⟨haddr, rfl⟩ := Prod.mk.inj h
    exact (BitVec.eq_of_toNat_eq haddr).symm

/-- Settles O15, by the register that the address names. -/
theorem registerWriteTransaction : Obligations.RegisterWriteTransaction := by
  intro s a d rest hp
  refine ⟨?operand, fun ha i => step_of_command_write hp (decodeRegister_of_toNat_eq ha),
    fun ha => step_of_status_write hp (decodeRegister_of_toNat_eq ha),
    fun ha => step_of_reserved_write hp ((decodeRegister_eq_none a).2 ha), ?minusEight⟩
  case operand =>
    change ∀ e ∈ operandRegisters.map fun r =>
      ((registerAddress (.operand r)).toNat, r, operandWidth s.platform.aw r), _
    refine List.forall_mem_map.2 fun r _ ha => ⟨s.regs.write s.platform.aw r d, ?_, ?_, ?_⟩
    · exact step_of_operand_write hp (decodeRegister_of_toNat_eq ha)
    · exact OperandRegs.read_write_self _ _ r d
    · exact fun r' => OperandRegs.read_write_other _ _ d
  case minusEight =>
    intro ha hd
    refine ⟨_, step_of_operand_write (r := .posx) hp (decodeRegister_of_toNat_eq ha), ?_⟩
    change sext16 (d.setWidth 16) = -8
    obtain rfl | rfl := hd <;> decide

/-- Settles O16: the table lists each register's address with the number it reads as. -/
theorem registerReadTransaction : Obligations.RegisterReadTransaction := by
  intro s a rest hp
  refine ⟨?_, fun ha => step_of_reserved_read hp ((decodeRegister_eq_none a).2 ha)⟩
  rw [← statusWord_toNat]
  change ∀ e ∈ registers.map fun reg => ((registerAddress reg).toNat, (busValue s reg).toNat), _
  exact List.forall_mem_map.2 fun reg _ ha =>
    ⟨busValue s reg, rfl, step_of_register_read hp (decodeRegister_of_toNat_eq ha)⟩

/-- Settles O50: only a command changes HIT, and of the commands only COLLIDE. -/
theorem statusRegister : Obligations.StatusRegister := by
  refine ⟨fun s t h hne => ?_, fun s d rest hp hd => ?_, fun s d rest hp => step_of_status_write hp rfl,
    fun s rest hp => ?_, State.powerOn_hit⟩
  · obtain ⟨d, rest, i, hp, hd, he⟩ | ⟨-, hhit⟩ := step_runs_command_or_keeps_fb_hit h
    · obtain ⟨rfl, rfl⟩ | ⟨-, fb, rfl⟩ := exec_next_cases he
      · exact ⟨d, rest, hp, hd, rfl⟩
      · exact absurd rfl hne
    · exact absurd hhit hne
  · exact ⟨_, step_of_command_write hp rfl hd, rfl⟩
  · exact ⟨statusWord s.hit, step_of_register_read (reg := .status) hp rfl, statusWord_bit_zero s.hit,
      fun _ => statusWord_bit_pos s.hit⟩

/-- Settles O51: only a command changes the frame buffer, and COLLIDE, the one command not listed, does not. -/
theorem frameBufferWrittenOnlyByItsCommands : Obligations.FrameBufferWrittenOnlyByItsCommands := by
  intro s t h hne
  obtain ⟨d, rest, i, hp, hd, he⟩ | ⟨hfb, -⟩ := step_runs_command_or_keeps_fb_hit h
  · refine ⟨d, rest, i, hp, hd, ?_⟩
    obtain ⟨-, rfl⟩ | ⟨hi, -⟩ := exec_next_cases he
    · exact absurd rfl hne
    · cases i <;> simp at hi ⊢
  · exact absurd hfb hne

/-- Settles O52: a register write stores in the register addressed and leaves what the others read as. -/
theorem operandRegisterWrittenOnlyByItsAddress : Obligations.OperandRegisterWrittenOnlyByItsAddress := by
  intro s t r h hne
  obtain ⟨r', d, rest, hp, rfl⟩ | hregs := step_writes_operand_or_keeps_regs h
  · by_cases hr : r = r'
    · exact ⟨_, d, rest, hp, hr ▸ decodeRegister_registerAddress _⟩
    · exact absurd (OperandRegs.read_write_other _ _ d hr) hne
  · exact absurd (congrArg (·.read r) hregs) hne

/-- Settles O53: COLLIDE sets HIT and nothing else, every other command the frame buffer and nothing else. -/
theorem commandsWriteOnlyTheirState : Obligations.CommandsWriteOnlyTheirState := by
  intro i s t h
  obtain ⟨hregs, hplatform, hpending, hreplies⟩ := exec_frame h
  refine ⟨hregs, hplatform, hpending, hreplies, ?_⟩
  obtain ⟨hi, rfl⟩ | ⟨hi, fb, rfl⟩ := exec_next_cases h
  · exact ⟨fun _ => rfl, fun hne => absurd hi hne⟩
  · exact ⟨fun he => absurd he hi, fun _ => rfl⟩

/-- Settles O54: a DRAW reads the operands its mode uses; the other four commands are never refused, and what each
writes is a function of the registers R44 lists. -/
theorem commandsReadOnlyTheirOperands : Obligations.CommandsReadOnlyTheirOperands := by
  intro i s s' hplatform hfb hr
  rcases hm : i.drawMode with _ | mode
  · refine ⟨fun t h => ?_, fun r h => ?_⟩
    · obtain ⟨t', h'⟩ := exec_of_no_drawMode hm s'
      exact ⟨t', h', exec_congr_of_no_drawMode hm hfb hr h h'⟩
    · obtain ⟨t, ht⟩ := exec_of_no_drawMode hm s
      cases ht.symm.trans h
  · simp only [exec_of_drawMode hm]
    have hused := usedOperands_congr hm hr
    refine ⟨fun t h => ⟨_, draw_next_congr hplatform hfb hused h, rfl, ?_⟩,
      fun r => draw_refused_congr hplatform hused⟩
    rintro rfl
    cases hm

/-- Settles O8: every field of the reset state is written out in `State.powerOn`. -/
theorem resetValues : Obligations.ResetValues := by
  refine ⟨fun p fb => ⟨fun r => ?_, rfl, rfl, rfl, rfl⟩, Config.resetPlatform, rfl⟩
  cases r <;> rfl

/-- Settles O12: address 0x00 names CMD. -/
theorem stepRunsTheDecodedCommand : Obligations.StepRunsTheDecodedCommand :=
  fun _ _ _ _ hp hd _ => step_of_command_write hp rfl hd

end

section
/-! Bitmap memory (20_memory.md): constant (R52), read by a defined DRAW only below `ROM_SIZE` and at addresses of 33 bits
(R53, R60); and the order of a DRAW's pixels (R62). -/

namespace Sys2Proof.Machine

/-! ### What a DRAW reads -/

/-- No transaction writes a parameter of the platform, bitmap memory among them (R22, R52). -/
theorem transact_platform {tr : Transaction} {s t : State} (h : transact tr s = .next t) :
    t.platform = s.platform := by
  obtain ⟨d, i, -, -, he⟩ | ⟨d, -, rfl⟩ | ⟨d, r, -, rfl⟩ | ⟨a, -, d, rfl⟩ | ⟨n, -, rfl⟩ := transact_next_cases h
  · obtain ⟨-, hplatform, -, -⟩ := exec_frame he
    exact hplatform
  · rfl
  · exact State.writeOperand_platform s r d
  · exact State.reply_platform s _
  · exact State.reply_platform s _

/-- When a DRAW completes: the header is read, the height is a multiple of 8, and every frame byte is in memory
(R137, R139). -/
theorem draw_completes_iff {mode : DrawMode} {s : State} :
    (∃ t, draw mode s = .next t)
      ↔ ∃ w h, header s.platform (drawOperands s.regs).bitmap = some (w, h) ∧ h % 8 = 0
          ∧ framesInMemory mode s.platform (drawOperands s.regs) w h = true := by
  simp only [draw_eq_next]
  constructor
  · rintro ⟨t, w, h, hh, h8, hf, -⟩
    exact ⟨w, h, hh, h8, hf⟩
  · rintro ⟨w, h, hh, h8, hf⟩
    exact ⟨_, w, h, hh, h8, hf, rfl⟩

/-- No address of a DRAW depends on the destination (R60). -/
theorem framesInMemory_position (mode : DrawMode) (p : Platform) (o : DrawOperands) (x y : Int) (w h : Nat) :
    framesInMemory mode p { o with x := x, y := y } w h = framesInMemory mode p o w h := by
  cases mode <;> rfl

/-- What a defined DRAW guarantees of the frame whose size its header gives (R139). -/
theorem drawDefined_of_header {mode : DrawMode} {s : State} {w h : Nat} (hd : drawDefined mode s)
    (hh : header s.platform s.regs.bmp.toNat = some (w, h)) :
    h % 8 = 0 ∧ ∀ addr, frameAddress mode (drawOperands s.regs) w h addr → addr < s.platform.romSize := by
  obtain ⟨w', h', hw', hh', h8, hmem⟩ := hd
  obtain ⟨-, rfl, rfl⟩ := header_eq_some.1 hh
  obtain ⟨-, rfl⟩ := (Platform.memRead_eq_some _ _ _).1 hw'
  obtain ⟨-, rfl⟩ := (Platform.memRead_eq_some _ _ _).1 hh'
  exact ⟨h8, hmem⟩

/-! ### The bytes of a frame are frame addresses (R60) -/

theorem frameAddress_image {mode : DrawMode} (hm : mode ≠ .plusMask) (o : DrawOperands) {w h n : Nat}
    (hn : n < frameByteSize w h) : frameAddress mode o w h (imageBase o.bitmap o.frame w h + n) := by
  cases mode with
  | extMask => exact .inl ⟨n, hn, rfl⟩
  | plusMask => exact absurd rfl hm
  | overwrite => exact ⟨n, hn, rfl⟩
  | erase => exact ⟨n, hn, rfl⟩
  | selfMask => exact ⟨n, hn, rfl⟩

theorem frameAddress_mask (o : DrawOperands) {w h n : Nat} (hn : n < frameByteSize w h) :
    frameAddress .extMask o w h (maskBase o.mask o.maskFrame w h + n) :=
  .inr ⟨n, hn, rfl⟩

theorem frameAddress_combined (o : DrawOperands) {w h n : Nat} (hn : n < frameByteSizeCombined w h) :
    frameAddress .plusMask o w h (combinedBase o.bitmap o.frame w h + n) :=
  ⟨n, hn, rfl⟩

/-- The byte of pixel `(i, j)` lies inside its frame: band `j / 8` is one of the frame's `h / 8` bands (R104). -/
theorem byteOffset_lt {w h i j : Nat} (h8 : h % 8 = 0) (hi : i < w) (hj : j < h) :
    j / 8 * w + i < frameByteSize w h := by
  have hband : j / 8 + 1 ≤ h / 8 := by omega
  calc j / 8 * w + i < (j / 8 + 1) * w := by rw [Nat.succ_mul]; omega
    _ ≤ h / 8 * w := Nat.mul_le_mul_right w hband
    _ = frameByteSize w h := Nat.mul_comm _ _

theorem frameByteSizeCombined_eq (w h : Nat) : frameByteSizeCombined w h = 2 * frameByteSize w h :=
  Nat.mul_assoc 2 w (h / 8)

/-- Both bytes of pixel `(i, j)` of a combined frame lie inside it (R105): they are the pair at twice the offset of R104. -/
theorem combinedByteOffset_lt {w h i j : Nat} (h8 : h % 8 = 0) (hi : i < w) (hj : j < h) :
    j / 8 * (2 * w) + (2 * i + 1) < frameByteSizeCombined w h := by
  have := byteOffset_lt h8 hi hj
  rw [frameByteSizeCombined_eq, Nat.mul_left_comm]
  omega

/-! ### How large a frame address is -/

/-- Every frame address is that of a byte of an image frame, of a mask frame or of a combined frame (R60, R103). -/
theorem frameAddress_cases {mode : DrawMode} {o : DrawOperands} {w h addr : Nat} (ha : frameAddress mode o w h addr) :
    (∃ n < frameByteSize w h, addr = imageBase o.bitmap o.frame w h + n)
      ∨ (∃ n < frameByteSize w h, addr = maskBase o.mask o.maskFrame w h + n)
      ∨ ∃ n < frameByteSizeCombined w h, addr = combinedBase o.bitmap o.frame w h + n := by
  cases mode with
  | extMask => exact ha.imp_right .inl
  | plusMask => exact .inr (.inr ha)
  | overwrite => exact .inl ha
  | erase => exact .inl ha
  | selfMask => exact .inl ha

/-- Header bytes of at most 255 give frames of at most `2 * 255 * 31` bytes (R102). -/
theorem frameByteSizeCombined_le (w h : Byte) : frameByteSizeCombined w.toNat h.toNat ≤ 2 * 255 * 31 := by
  have hw := w.isLt
  have hh := h.isLt
  exact Nat.mul_le_mul (by omega) (by omega)

/-- Header bytes of at most 255 give image and mask frames of at most as many bytes too (R102). -/
theorem frameByteSize_le (w h : Byte) : frameByteSize w.toNat h.toNat ≤ 2 * 255 * 31 := by
  have := frameByteSizeCombined_le w h
  rw [frameByteSizeCombined_eq] at this
  omega

/-- The bound of R60 for byte `n` of a frame at a 32-bit base, its index of 8 bits. -/
theorem frameByte_lt_bound {base frame size n : Nat} (hbase : base < 2 ^ 32) (hframe : frame < 2 ^ 8)
    (hsize : size ≤ 2 * 255 * 31) (hn : n < size) :
    base + 2 + frame * size + n < 2 ^ 32 + 2 + 255 * 2 * 255 * 31 + 2 * 255 * 31 := by
  have hmul : frame * size ≤ 255 * (2 * 255 * 31) := Nat.mul_le_mul (by omega) hsize
  omega

/-! ### The order of the pixels -/

/-- The pixel loop gives the same buffer over any order of distinct source pixels: no two share a destination, and each
is combined with what its destination held before the command (R62). -/
theorem foldl_drawPixel_perm (mode : DrawMode) (p : Platform) (o : DrawOperands) (w h : Nat) (fb : FrameBuffer)
    {l l' : List (Nat × Nat)} (hl : l'.Nodup) (hp : l.Perm l') :
    l.foldl (drawPixel mode p o w h) fb = l'.foldl (drawPixel mode p o w h) fb := by
  refine FrameBuffer.ext fun px py hpx hpy => ?_
  simp only [get_foldl_drawPixel mode p o w h _ (hp.nodup_iff.2 hl) fb hpx hpy,
    get_foldl_drawPixel mode p o w h _ hl fb hpx hpy, hp.mem_iff]

section
variable (mode : DrawMode) (p : Platform) (o : DrawOperands) {w h : Nat} (fb : FrameBuffer) {px py : Nat}

/-- A DRAW leaves in the destination of source pixel `(i, j)` the combination of its bits (R146). -/
theorem get_blit_destination (hpx : px < WIDTH) (hpy : py < HEIGHT) {i j : Nat} (hi : i < w) (hj : j < h)
    (hx : (px : Int) = o.x + i) (hy : (py : Int) = o.y + j) :
    FrameBuffer.get (blit mode p o w h fb) px py
      = combine mode (srcImg mode p o w h i j) (srcMsk mode p o w h i j) (FrameBuffer.get fb px py) := by
  obtain ⟨-, -, rfl, rfl⟩ := destination_iff.1 ⟨hx, hy⟩
  rw [get_blit mode p o w h fb hpx hpy, if_pos (by omega)]

/-- A DRAW keeps every pixel outside its rectangle (R146, R150). -/
theorem get_blit_outside (hpx : px < WIDTH) (hpy : py < HEIGHT)
    (hout : ¬ (o.x ≤ px ∧ (px : Int) < o.x + w ∧ o.y ≤ py ∧ (py : Int) < o.y + h)) :
    FrameBuffer.get (blit mode p o w h fb) px py = FrameBuffer.get fb px py := by
  rw [get_blit mode p o w h fb hpx hpy, if_neg hout]

end

end Sys2Proof.Machine

open Sys2Proof Sys2Proof.Machine

/-- Settles O11: the platform, bitmap memory included, is what no transaction writes. -/
theorem bitmapMemoryIsConstant : Obligations.BitmapMemoryIsConstant := by
  intro s t h
  have hplatform : t.platform = s.platform := by
    obtain ⟨-, rfl⟩ | ⟨tr, rest, -, ht⟩ := step_next_cases h
    · rfl
    · exact (transact_platform ht).trans (State.setPending_platform s rest)
  exact ⟨fun addr => by rw [hplatform], hplatform⟩

/-- Settles O30: what a DRAW checks before its loop is a function of the header and the frame addresses, and neither
depends on POSX or POSY. -/
theorem drawDefinednessIgnoresPosition : Obligations.DrawDefinednessIgnoresPosition := by
  intro i s x y hi
  obtain ⟨mode, hm⟩ := Option.ne_none_iff_exists'.1 hi
  have hops : drawOperands { s.regs with posx := x, posy := y }
      = { drawOperands s.regs with x := sext16 x, y := sext16 y } := rfl
  simp only [exec_of_drawMode hm, draw_completes_iff, hops, framesInMemory_position]

/-- Settles O31: the byte of a source pixel lies inside its frame, so its address is one of those that R139 requires
below `ROM_SIZE`. -/
theorem definedDrawReadsOnlyBitmapMemory : Obligations.DefinedDrawReadsOnlyBitmapMemory := by
  intro mode s w h i j hd hh hi hj
  obtain ⟨h8, hmem⟩ := drawDefined_of_header hd hh
  have hoff := byteOffset_lt h8 hi hj
  have hoff2 := combinedByteOffset_lt h8 hi hj
  refine ⟨fun hm => ?image, ?mask, ?combined⟩
  case image =>
    rw [imgByteAddr, Nat.add_assoc]
    exact hmem _ (frameAddress_image hm _ hoff)
  case mask =>
    rintro rfl
    rw [imgByteAddr, Nat.add_assoc]
    exact hmem _ (frameAddress_mask _ hoff)
  case combined =>
    rintro rfl
    have hmsk : cmbMskByteAddr (combinedBase s.regs.bmp.toNat s.regs.frm.toNat w h) w i j < s.platform.romSize := by
      rw [cmbMskByteAddr, Nat.add_assoc, Nat.add_assoc]
      exact hmem _ (frameAddress_combined _ hoff2)
    exact ⟨Nat.lt_of_succ_lt hmsk, hmsk⟩

/-- Settles O32: 32-bit addresses, 8-bit frame numbers and frames of at most `2 * 255 * 31` bytes. -/
theorem frameAddressesFitThirtyThreeBits : Obligations.FrameAddressesFitThirtyThreeBits := by
  intro mode g w h addr ha
  have hbound : addr < 2 ^ 32 + 2 + 255 * 2 * 255 * 31 + 2 * 255 * 31 := by
    obtain ⟨n, hn, rfl⟩ | ⟨n, hn, rfl⟩ | ⟨n, hn, rfl⟩ := frameAddress_cases ha
    · exact frameByte_lt_bound g.bmp.isLt g.frm.isLt (frameByteSize_le w h) hn
    · have hmask := frameByte_lt_bound g.msk.isLt g.mfrm.isLt (frameByteSize_le w h) hn
      simp only [maskBase, drawOperands]
      omega
    · exact frameByte_lt_bound g.bmp.isLt g.frm.isLt (frameByteSizeCombined_le w h) hn
  exact ⟨hbound, hbound.trans (by decide)⟩

/-- Settles O41: a permutation of the source pixels lists each once, as the row by row loop does. -/
theorem drawResultIsOrderFree : Obligations.DrawResultIsOrderFree := by
  intro mode p o w h fb l hl
  have hblit : l.foldl (drawPixel mode p o w h) fb = blit mode p o w h fb :=
    foldl_drawPixel_perm mode p o w h fb (nodup_drawOrder w h) hl
  rw [hblit]
  refine ⟨rfl, fun px py hpx hpy => ⟨fun i j hi hj hx hy => ?_, fun hout => ?_⟩⟩
  · exact get_blit_destination mode p o fb hpx hpy hi hj (by omega) (by omega)
  · exact get_blit_outside mode p o fb hpx hpy (by omega)

end

section
/-! Encodings and listings (30_encoding.md): the command map (R81, R83 to R85, R88), the lines of a listing (R90), the
operands of a command (R86), and the pseudo-instructions (R91). -/

namespace Sys2Proof.Machine

/-! ### The command map -/

/-- The commands in the order of R83. -/
def commands : List Instr :=
  [.drawExtmask, .drawPlusmask, .drawOverwrite, .drawErase, .drawSelfmask, .pixelClr, .pixelSet, .fbClear, .collide]

theorem mem_commands (i : Instr) : i ∈ commands := by cases i <;> decide

/-- The nine codes of R83. -/
def commandCodes : List Nat := commands.map fun i => (encodeByte i).toNat

theorem mem_commandCodes {n : Nat} : n ∈ commandCodes ↔ ∃ i, (encodeByte i).toNat = n := by
  simp only [commandCodes, List.mem_map, mem_commands, true_and]

/-- Membership in `commandCodes` as equations, for linear arithmetic. -/
theorem mem_commandCodes_iff {n : Nat} :
    n ∈ commandCodes ↔ n = 0x10 ∨ n = 0x11 ∨ n = 0x12 ∨ n = 0x13 ∨ n = 0x14 ∨ n = 0x20 ∨ n = 0x21 ∨ n = 0x30
      ∨ n = 0x40 := by
  simp [commandCodes, commands, encodeByte]

theorem commandByte_toNat (d : Data) : (commandByte d).toNat = d.toNat % 256 := BitVec.toNat_setWidth ..

theorem commandByte_encode (i : Instr) : commandByte (encode i) = encodeByte i := by cases i <;> rfl

theorem extractLsb'_eq_commandByte (d : Data) : d.extractLsb' 0 8 = commandByte d :=
  (BitVec.setWidth_eq_extractLsb' (by decide)).symm

theorem decode_encode (i : Instr) : decode (encode i) = .ok i := by cases i <;> rfl

/-- The decoder sees the command byte alone (R81). -/
theorem decode_congr {d d' : Data} (h : commandByte d = commandByte d') : decode d = decode d' := by
  unfold decode
  rw [h]

/-- A word decodes to the command whose code is its low byte (R83). -/
theorem decode_eq_ok {d : Data} {i : Instr} : decode d = .ok i ↔ commandByte d = encodeByte i := by
  constructor
  · intro h
    unfold decode at h
    split at h <;> cases h <;> assumption
  · intro h
    rw [decode_congr (h.trans (commandByte_encode i).symm), decode_encode]

theorem decode_eq_ok_iff_code {d : Data} {i : Instr} : decode d = .ok i ↔ d.toNat % 256 = (encodeByte i).toNat := by
  rw [decode_eq_ok, ← BitVec.toNat_inj, commandByte_toNat]

/-- The decoder rejects with the command byte (R88). -/
theorem eq_of_decode_eq_error {d : Data} {e : DecodeError} (h : decode d = .error e) :
    e = .reservedCommand (commandByte d) := by
  unfold decode at h
  split at h <;> cases h
  rfl

/-- A word is a command exactly if its low byte is one of the nine codes (R83). -/
theorem exists_decode_eq_ok {d : Data} : (∃ i, decode d = .ok i) ↔ d.toNat % 256 ∈ commandCodes := by
  simp only [decode_eq_ok_iff_code, mem_commandCodes, eq_comm (a := d.toNat % 256)]

/-- Every other word is rejected (R83, R88). -/
theorem decode_eq_error {d : Data} :
    decode d = .error (.reservedCommand (commandByte d)) ↔ d.toNat % 256 ∉ commandCodes := by
  rw [← exists_decode_eq_ok]
  rcases h : decode d with e | i
  · rw [eq_of_decode_eq_error h]
    exact iff_of_true rfl nofun
  · exact iff_of_false nofun (not_not.2 ⟨i, rfl⟩)

/-- A DRAW's code has GRP 1 and its mode's number in FN (R84). -/
theorem encodeByte_of_drawMode {i : Instr} {mode : DrawMode} (h : i.drawMode = some mode) :
    (encodeByte i).toNat = 16 + mode.number := by
  cases i <;> cases h <;> rfl

/-- The combination rules stand in the table of R84 and R136 at their mode's number. -/
theorem combine_eq_getD (mode : DrawMode) (img msk dst : Bool) :
    combine mode img msk dst
      = [cond msk img dst, cond msk img dst, img, cond img false dst, cond img true dst].getD mode.number false := by
  cases mode <;> simp only [combine, Bool.cond_eq_ite] <;> rfl

/-! ### The PIXEL commands -/

/-- The command that `pixel x, y, v` expands to (R91). -/
abbrev pixelCommand (v : Bool) : Instr := if v then .pixelSet else .pixelClr

/-- A PIXEL command's code has GRP 2 and the pixel value in FN (R85). -/
theorem encodeByte_pixelCommand (v : Bool) : (encodeByte (pixelCommand v)).toNat = 32 + v.toNat := by
  cases v <;> rfl

theorem exec_pixelCommand (v : Bool) (s : State) : exec (pixelCommand v) s = .next (writePixelAtPos v s) := by
  cases v <;> rfl

/-- The pixel written is the one at POSX, POSY, both read as signed (R86, R121). -/
theorem writePixelAtPos_eq (v : Bool) (s : State) :
    writePixelAtPos v s = { s with fb := fbWrite s.fb s.regs.posx.toInt s.regs.posy.toInt v } := by
  simp only [writePixelAtPos, drawOperands, sext16_eq_toInt, State.setFb]

/-! ### Refusals -/

/-- A command is refused only for its bitmap (U1, U2). -/
theorem exec_refused_cases {i : Instr} {s : State} {r : Refusal} (h : exec i s = .refused r) :
    r = .heightNotMultipleOf8 ∨ r = .beyondBitmapMemory := by
  rcases hm : i.drawMode with _ | mode
  · obtain ⟨t, ht⟩ := exec_of_no_drawMode hm s
    cases ht.symm.trans h
  · rw [exec_of_drawMode hm] at h
    obtain ⟨-, rfl⟩ | ⟨w, hgt, -, ⟨-, rfl⟩ | ⟨-, -, rfl⟩⟩ := draw_eq_refused.1 h
    · exact .inr rfl
    · exact .inl rfl
    · exact .inr rfl

/-- A write to CMD is refused for a reserved code, or as the command that its data decode to is (R88). -/
theorem writeCommand_refused_cases {d : Data} {s : State} {r : Refusal} (h : writeCommand d s = .refused r) :
    (d.toNat % 256 ∉ commandCodes ∧ r = .reservedCommand (commandByte d))
      ∨ r = .heightNotMultipleOf8 ∨ r = .beyondBitmapMemory := by
  unfold writeCommand at h
  split at h
  · exact .inr (exec_refused_cases h)
  · rename_i c hd
    cases h
    cases eq_of_decode_eq_error hd
    exact .inl ⟨decode_eq_error.1 hd, rfl⟩

/-- A write to CMD is refused as reserved exactly for the codes outside R83 (R88). -/
theorem writeCommand_reserved_iff {d : Data} {s : State} :
    writeCommand d s = .refused (.reservedCommand (commandByte d)) ↔ d.toNat % 256 ∉ commandCodes := by
  constructor
  · intro h
    obtain ⟨hd, -⟩ | h | h := writeCommand_refused_cases h
    · exact hd
    · cases h
    · cases h
  · intro h
    simp only [writeCommand, decode_eq_error.2 h]

/-- A register write is refused as reserved exactly at the addresses of no register (R42). -/
theorem regWrite_reserved_iff {a : RegAddr} {d : Data} {s : State} :
    regWrite a d s = .refused (.reservedRegister a) ↔ decodeRegister a = none := by
  unfold regWrite
  split
  · rename_i ha
    refine iff_of_false (fun h => ?_) (by simp [ha])
    obtain ⟨-, h⟩ | h | h := writeCommand_refused_cases h <;> cases h
  · simp [*]
  · simp [*]
  · simp [*]

/-- A register read is refused as reserved exactly at the addresses of no register (R42). -/
theorem regRead_reserved_iff {a : RegAddr} {s : State} :
    regRead a s = .refused (.reservedRegister a) ↔ decodeRegister a = none := by
  unfold regRead
  split <;> simp [*]

/-! ### Runs of operand writes -/

/-- The listing lines that write these values to these operand registers, in order (R90). -/
def writeLines (ws : List (OperandReg × Int)) : List Line := ws.map fun w => .wr (.operand w.1) w.2

/-- The operand registers after these writes (R40). -/
def OperandRegs.writeAll (aw : Nat) : OperandRegs → List (OperandReg × Int) → OperandRegs
  | g, [] => g
  | g, (r, v) :: ws => OperandRegs.writeAll aw (g.write aw r (BitVec.ofInt 32 v)) ws

/-- One step for each line, and nothing but the operand registers is written (R40, R61). -/
theorem run_writeLines (ws : List (OperandReg × Int)) (k : Nat) {s : State} {rest : List Transaction}
    (hp : s.pending = (writeLines ws).map Line.assemble ++ rest) :
    Sys2Proof.core.run (ws.length + k) s
      = Sys2Proof.core.run k { s with regs := s.regs.writeAll s.platform.aw ws, pending := rest } := by
  induction ws generalizing s with
  | nil =>
    cases hp
    rw [List.length_nil, Nat.zero_add]
    rfl
  | cons w ws ih =>
    have hstep := step_of_operand_write (r := w.1) hp (decodeRegister_registerAddress _)
    rw [List.length_cons, Nat.add_right_comm, run_succ hstep, ih rfl]
    rfl

/-- A listing line `cmd MNEMONIC` executes that command (R39, R90). -/
theorem step_of_cmd_line {i : Instr} {s : State} {rest : List Transaction}
    (hp : s.pending = (Line.cmd i).assemble :: rest) : step s = exec i { s with pending := rest } :=
  step_of_command_write hp rfl (decode_encode i)

/-- Operand writes and then a command: the command runs on the registers written (R91). -/
theorem run_writeLines_cmd (ws : List (OperandReg × Int)) (i : Instr) {s : State} {rest : List Transaction}
    (hp : s.pending = (writeLines ws).map Line.assemble ++ (Line.cmd i).assemble :: rest) :
    Sys2Proof.core.run (ws.length + 1) s
      = exec i { s with regs := s.regs.writeAll s.platform.aw ws, pending := rest } := by
  rw [run_writeLines ws 1 hp, run_one, step_of_cmd_line rfl]

/-- COLLIDE and a read of STATUS: two steps hand the host the result of the comparison (R161). -/
theorem run_collide_status {s : State} {rest : List Transaction}
    (hp : s.pending = (Line.cmd .collide).assemble :: (Line.rd .status).assemble :: rest) :
    Sys2Proof.core.run 2 s
      = .next { s with
          hit := collide (rect1 s.regs) (rect2 s.regs)
          pending := rest
          replies := .data (statusWord (collide (rect1 s.regs) (rect2 s.regs))) :: s.replies } := by
  rw [run_succ (step_of_cmd_line hp), run_one]
  exact step_of_register_read (reg := .status) rfl rfl

/-! ### The values that operand writes store -/

/-- A signed operand survives the write to a 16-bit register (R40, R86). -/
theorem sext16_ofInt {v : Int} (h : signedOperand v) : sext16 ((BitVec.ofInt 32 v).setWidth 16) = v := by
  obtain ⟨hlo, hhi⟩ := h
  simp only [sext16, BitVec.toNat_setWidth, BitVec.toNat_ofInt]
  split <;> omega

/-- An unsigned operand survives the write to a register wide enough for it (R40, R86). -/
theorem setWidth_ofInt_toNat {n v : Nat} (hn : n ≤ 32) (h : v < 2 ^ n) :
    ((BitVec.ofInt 32 (v : Int)).setWidth n).toNat = v := by
  have h32 : v < 2 ^ 32 := h.trans_le (Nat.pow_le_pow_right (by decide) hn)
  rw [BitVec.ofInt_natCast, BitVec.toNat_setWidth, BitVec.toNat_ofNat, Nat.mod_eq_of_lt h32, Nat.mod_eq_of_lt h]

/-- An address of `AW` bits survives the write to BMP or MSK (R27, R29, R40). -/
theorem lowBits_ofInt_toNat {aw v : Nat} (haw : aw ≤ 32) (h : v < 2 ^ aw) :
    (lowBits aw (BitVec.ofInt 32 (v : Int))).toNat = v := by
  rw [lowBits_toNat, ← BitVec.toNat_setWidth, setWidth_ofInt_toNat haw h]

/-- The writes of `drawOperandLines` (R91). -/
def drawWrites (x y : Int) (bitmap frame : Nat) : List (OperandReg × Int) :=
  [(.posx, x), (.posy, y), (.bmp, bitmap), (.frm, frame)]

/-- After the writes of `drawOperandLines` the registers hold the call's operands and keep the mask's two (R86,
R91). -/
theorem drawOperands_drawWrites {aw : Nat} (haw : aw ≤ 32) (g : OperandRegs) {x y : Int} {bitmap frame : Nat}
    (hx : signedOperand x) (hy : signedOperand y) (hbitmap : bitmap < 2 ^ aw) (hframe : frame < 256) :
    drawOperands (g.writeAll aw (drawWrites x y bitmap frame))
      = ⟨x, y, bitmap, frame, g.msk.toNat, g.mfrm.toNat⟩ := by
  simp only [drawWrites, OperandRegs.writeAll, OperandRegs.write, drawOperands, sext16_ofInt hx, sext16_ofInt hy,
    lowBits_ofInt_toNat haw hbitmap, setWidth_ofInt_toNat (n := 8) (by decide) hframe]

/-- The four draw expansions without a mask, in one: `drawOperandLines` and the command (R91). -/
theorem run_drawOperandLines_cmd (i : Instr) {s : State} {x y : Int} {bitmap frame : Nat} {rest : List Transaction}
    (haw : s.platform.aw ≤ 32)
    (hwf : signedOperand x ∧ signedOperand y ∧ bitmap < 2 ^ s.platform.aw ∧ frame < 256)
    (hp : s.pending = (drawOperandLines x y bitmap frame ++ [Line.cmd i]).map Line.assemble ++ rest) :
    ∃ g : OperandRegs, drawOperands g = ⟨x, y, bitmap, frame, s.regs.msk.toNat, s.regs.mfrm.toNat⟩
      ∧ rect1 g = rect1 s.regs ∧ rect2 g = rect2 s.regs
      ∧ Sys2Proof.core.run 5 s = exec i { s with regs := g, pending := rest } := by
  obtain ⟨hx, hy, hbitmap, hframe⟩ := hwf
  exact ⟨_, drawOperands_drawWrites haw s.regs hx hy hbitmap hframe, rfl, rfl,
    run_writeLines_cmd (drawWrites x y bitmap frame) i hp⟩

/-- The writes of `draw.extmask` (R91). -/
def extmaskWrites (x y : Int) (bitmap frame mask maskFrame : Nat) : List (OperandReg × Int) :=
  drawWrites x y bitmap frame ++ [(OperandReg.msk, (mask : Int)), (OperandReg.mfrm, (maskFrame : Int))]

/-- After the writes of `draw.extmask` the registers hold the call's six operands (R86, R91). -/
theorem drawOperands_extmaskWrites {aw : Nat} (haw : aw ≤ 32) (g : OperandRegs) {x y : Int}
    {bitmap frame mask maskFrame : Nat} (hx : signedOperand x) (hy : signedOperand y) (hbitmap : bitmap < 2 ^ aw)
    (hframe : frame < 256) (hmask : mask < 2 ^ aw) (hmaskFrame : maskFrame < 256) :
    drawOperands (g.writeAll aw (extmaskWrites x y bitmap frame mask maskFrame))
      = ⟨x, y, bitmap, frame, mask, maskFrame⟩ := by
  simp only [extmaskWrites, drawWrites, List.cons_append, List.nil_append, OperandRegs.writeAll, OperandRegs.write,
    drawOperands, sext16_ofInt hx, sext16_ofInt hy, lowBits_ofInt_toNat haw hbitmap, lowBits_ofInt_toNat haw hmask,
    setWidth_ofInt_toNat (n := 8) (by decide) hframe, setWidth_ofInt_toNat (n := 8) (by decide) hmaskFrame]

/-- The writes of `collide` (R91). -/
def collideWrites (r1 r2 : Rect) : List (OperandReg × Int) :=
  [(.r1x, r1.x), (.r1y, r1.y), (.r1w, r1.w), (.r1h, r1.h), (.r2x, r2.x), (.r2y, r2.y), (.r2w, r2.w), (.r2h, r2.h)]

/-- The operand range of a rectangle (R86, R91). -/
def Rect.inRange (r : Rect) : Prop := signedOperand r.x ∧ signedOperand r.y ∧ r.w < 65536 ∧ r.h < 65536

/-- After the writes of `collide` the registers hold the first rectangle (R86, R91). -/
theorem rect1_collideWrites (aw : Nat) (g : OperandRegs) {r1 : Rect} (h : r1.inRange) (r2 : Rect) :
    rect1 (g.writeAll aw (collideWrites r1 r2)) = r1 := by
  obtain ⟨hx, hy, hw, hh⟩ := h
  simp only [collideWrites, OperandRegs.writeAll, OperandRegs.write, rect1, sext16_ofInt hx, sext16_ofInt hy,
    setWidth_ofInt_toNat (n := 16) (by decide) hw, setWidth_ofInt_toNat (n := 16) (by decide) hh]

/-- After the writes of `collide` the registers hold the second rectangle (R86, R91). -/
theorem rect2_collideWrites (aw : Nat) (g : OperandRegs) (r1 : Rect) {r2 : Rect} (h : r2.inRange) :
    rect2 (g.writeAll aw (collideWrites r1 r2)) = r2 := by
  obtain ⟨hx, hy, hw, hh⟩ := h
  simp only [collideWrites, OperandRegs.writeAll, OperandRegs.write, rect2, sext16_ofInt hx, sext16_ofInt hy,
    setWidth_ofInt_toNat (n := 16) (by decide) hw, setWidth_ofInt_toNat (n := 16) (by decide) hh]

/-- The writes of `collide` leave the operands of DRAW as they were (R25, R91). -/
theorem drawOperands_collideWrites (aw : Nat) (g : OperandRegs) (r1 r2 : Rect) :
    drawOperands (g.writeAll aw (collideWrites r1 r2)) = drawOperands g := by
  simp only [collideWrites, OperandRegs.writeAll, OperandRegs.write, drawOperands]

end Sys2Proof.Machine

open Sys2Proof Sys2Proof.Machine

/-- Settles O3: the decoder compares the command byte with the codes, and `extractLsb' 0 8` is the command byte. -/
theorem encodedCommandsDecodeBack : Obligations.EncodedCommandsDecodeBack := by
  intro i d _
  refine ⟨?_, decode_encode i, ?_⟩
  · rw [encode, BitVec.toNat_setWidth_of_le (by decide)]
    exact (encodeByte i).isLt
  · rw [decode_eq_ok, extractLsb'_eq_commandByte, extractLsb'_eq_commandByte, commandByte_encode]

/-- Settles O2: the table lists each command at its code. -/
theorem commandSelectedByExactLowByte : Obligations.CommandSelectedByExactLowByte := by
  refine fun d => ⟨fun i => ?_, fun c => ?_⟩
  · change _ ↔ _ ∈ commands.map fun i => ((encodeByte i).toNat, i)
    rw [decode_eq_ok_iff_code, List.mem_map]
    constructor
    · intro h
      exact ⟨i, mem_commands i, by rw [h]⟩
    · rintro ⟨j, -, h⟩
      obtain ⟨hcode, rfl⟩ := Prod.mk.inj h
      exact hcode.symm
  · change _ ↔ _ ∧ _ ∉ commandCodes
    rw [← decode_eq_error, ← commandByte_toNat, BitVec.toNat_inj]
    constructor
    · intro h
      cases eq_of_decode_eq_error h
      exact ⟨rfl, h⟩
    · rintro ⟨rfl, h⟩
      exact h

/-- Settles O4: with GRP 1 the code is 16 + FN, and a DRAW's code is 16 plus its mode's number. -/
theorem drawModeIsTheFunctionField : Obligations.DrawModeIsTheFunctionField := by
  intro d hgrp
  have hfn : ∀ i mode, i.drawMode = some mode → (decode d = .ok i ↔ d.toNat % 16 = mode.number) := by
    intro i mode hm
    rw [decode_eq_ok_iff_code, encodeByte_of_drawMode hm]
    omega
  refine ⟨hfn, fun h5 => ⟨_, decode_eq_error.2 ?_⟩, fun i mode img msk dst hd hm => ?_⟩
  · rw [mem_commandCodes_iff]
    omega
  · rw [(hfn i mode hm).1 hd, combine_eq_getD]

/-- Settles O5: the low byte is 16 times GRP plus FN, and the codes of R83 with GRP 2 to 4 are 0x20, 0x21, 0x30
and 0x40. -/
theorem pixelValueIsFunctionBit : Obligations.PixelValueIsFunctionBit := by
  intro d s
  have herr (h : d.toNat % 256 ∉ commandCodes) : ∃ e, decode d = .error e := ⟨_, decode_eq_error.2 h⟩
  rw [mem_commandCodes_iff] at herr
  rw [exists_decode_eq_ok, mem_commandCodes_iff]
  refine ⟨fun hgrp hfn => ⟨pixelCommand (d.getLsbD 0), ?_, ?_⟩, fun hgrp hfn => herr (by omega),
    fun hgrp => by omega, fun hgrp => by omega, fun hgrp => herr (by omega)⟩
  · have hbit : (d.getLsbD 0).toNat = d.toNat % 2 := by
      rw [BitVec.getLsbD, Nat.toNat_testBit, pow_zero, Nat.div_one]
    rw [decode_eq_ok_iff_code, encodeByte_pixelCommand, hbit]
    omega
  · rw [exec_pixelCommand, writePixelAtPos_eq]

/-- Settles O7: each register's address decodes to it, and a number in range is kept by the bits it is written in. -/
theorem listingLinesAssemble : Obligations.ListingLinesAssemble := by
  refine ⟨fun reg v _ => ⟨_, _, rfl, decodeRegister_registerAddress reg, ?_⟩,
    fun reg => ⟨_, rfl, decodeRegister_registerAddress reg⟩, fun n hn => ⟨_, rfl, ?_⟩, fun i => ?_⟩
  · rw [BitVec.toNat_ofInt]
    omega
  · exact Nat.mod_eq_of_lt (of_decide_eq_true hn)
  · rw [Line.assemble, Line.assemble, BitVec.ofInt_natCast, BitVec.ofNat_toNat]
    rfl

/-- Settles O18: no command is refused as reserved, so a write to CMD is only for its code, and a register
transaction only for its address. -/
theorem reservedTransactionsAreRefused : Obligations.ReservedTransactionsAreRefused := by
  intro s d a rest
  refine ⟨fun hp => ?_, fun hp => ?_, fun hp => ?_⟩ <;> rw [step_of_pending hp]
  · exact writeCommand_reserved_iff
  · exact regWrite_reserved_iff.trans (decodeRegister_eq_none a)
  · exact regRead_reserved_iff.trans (decodeRegister_eq_none a)

/-- Settles O55: `sext_16` is the signed value, and each range is the register's width. -/
theorem operandAssembly : Obligations.OperandAssembly := by
  rintro s ⟨-, hbmp, hmsk⟩
  refine ⟨?_, ?_, ?_, ?_, hbmp, hmsk, s.regs.frm.isLt, s.regs.mfrm.isLt, ?_⟩
  · simp only [drawOperands, sext16_eq_toInt]
  · simp only [rect1, sext16_eq_toInt]
  · simp only [rect2, sext16_eq_toInt]
  · simp only [drawOperands, rect1, rect2, List.forall_mem_cons, sext16_bounds, List.not_mem_nil, and_true,
      false_implies, implies_true]
  · simp only [List.forall_mem_cons, List.not_mem_nil, false_implies, implies_true, and_true]
    exact ⟨s.regs.r1w.isLt, s.regs.r1h.isLt, s.regs.r2w.isLt, s.regs.r2h.isLt⟩

/-- Settles O56: the expansion is a run of operand writes that hold the call's operands, and then the command. -/
theorem pseudoDrawIsTheCall : Obligations.PseudoDrawIsTheCall := by
  rintro s x y bitmap frame mask maskFrame rest ⟨⟨-, haw, -⟩, -⟩
  refine ⟨?fourOperands, fun hwf hp => ?sixOperands⟩
  case fourOperands =>
    simp only [List.forall_mem_cons, List.not_mem_nil, false_implies, implies_true, and_true]
    exact ⟨fun hwf => run_drawOperandLines_cmd _ haw (of_decide_eq_true hwf),
      fun hwf => run_drawOperandLines_cmd _ haw (of_decide_eq_true hwf),
      fun hwf => run_drawOperandLines_cmd _ haw (of_decide_eq_true hwf),
      fun hwf => run_drawOperandLines_cmd _ haw (of_decide_eq_true hwf)⟩
  case sixOperands =>
    obtain ⟨hx, hy, hbitmap, hframe, hmask, hmaskFrame⟩ := of_decide_eq_true hwf
    exact ⟨_, drawOperands_extmaskWrites haw s.regs hx hy hbitmap hframe hmask hmaskFrame, rfl, rfl,
      run_writeLines_cmd (extmaskWrites x y bitmap frame mask maskFrame) .drawExtmask hp⟩

/-- Settles O57: two operand writes and a PIXEL command on the positions written; FB.CLEAR alone. -/
theorem pseudoPixelAndClear : Obligations.PseudoPixelAndClear := by
  refine fun s x y v rest => ⟨fun hwf hp => ?_, fun hp => run_writeLines_cmd [] .fbClear hp⟩
  obtain ⟨hx, hy⟩ := of_decide_eq_true hwf
  have hrun := run_writeLines_cmd [(.posx, x), (.posy, y)] (pixelCommand v) hp
  rw [exec_pixelCommand] at hrun
  refine ⟨_, hrun, ?_, rfl, rfl, sext16_ofInt hx, sext16_ofInt hy⟩
  simp only [writePixelAtPos, State.setFb_fb, drawOperands, OperandRegs.writeAll, OperandRegs.write,
    sext16_ofInt hx, sext16_ofInt hy]

/-- Settles O58: eight operand writes that hold the call's rectangles, then COLLIDE and the read of its result. -/
theorem pseudoCollideIsTheCall : Obligations.PseudoCollideIsTheCall := by
  intro s x1 y1 x2 y2 w1 h1 w2 h2 rest hwf hp
  obtain ⟨hx1, hy1, hw1, hh1, hx2, hy2, hw2, hh2⟩ := of_decide_eq_true hwf
  have hrun := run_writeLines (collideWrites ⟨x1, y1, w1, h1⟩ ⟨x2, y2, w2, h2⟩) 2
    (rest := (Line.cmd .collide).assemble :: (Line.rd .status).assemble :: rest) hp
  rw [run_collide_status rfl, rect1_collideWrites _ _ ⟨hx1, hy1, hw1, hh1⟩,
    rect2_collideWrites _ _ _ ⟨hx2, hy2, hw2, hh2⟩] at hrun
  exact ⟨_, hrun, rfl, rfl, rfl, drawOperands_collideWrites _ _ _ _⟩

/-- Settles O1: ten words, evaluated. -/
theorem tabulatedCommandWordsDecode : Obligations.TabulatedCommandWordsDecode := by
  unfold Obligations.TabulatedCommandWordsDecode
  decide

end

section
/-! The bitmap format (40_bitmap_format.md): the band cursor (R107), the extent of a bitmap (R114), empty bitmaps (R110),
and the DRAWs that a bitmap leaves without a result (R109, with R53 and R60). -/

namespace Sys2Proof.Machine

/-- At row `j` the cursor has passed the stride of each of the `j / 8` bands above (R107). -/
theorem bandCursor_eq (base stride j : Nat) : bandCursor base stride j = base + j / 8 * stride := by
  induction j with
  | zero => simp [bandCursor]
  | succ j ih =>
    rw [bandCursor, ih]
    split
    next hband =>
      have hdiv : (j + 1) / 8 = j / 8 + 1 := by omega
      rw [hdiv, Nat.succ_mul, Nat.add_assoc]
    next hband =>
      have hdiv : (j + 1) / 8 = j / 8 := by omega
      rw [hdiv]

/-- Frames laid end to end: byte `k` of frame `f` lies among the bytes of the first `n` frames (R103, R114). -/
theorem frameOffset_lt {f n size k : Nat} (hf : f < n) (hk : k < size) : f * size + k < n * size :=
  calc f * size + k < (f + 1) * size := by rw [Nat.succ_mul]; omega
    _ ≤ n * size := Nat.mul_le_mul_right size hf

/-- The header is decoded from its two bytes (R101). -/
theorem header_of_memRead {p : Platform} {bitmap : Nat} {w h : Byte} (hw : p.memRead bitmap = some w)
    (hh : p.memRead (bitmap + 1) = some h) : header p bitmap = some (w.toNat, h.toNat) := by
  obtain ⟨-, rfl⟩ := (Platform.memRead_eq_some _ _ _).1 hw
  obtain ⟨hlt, rfl⟩ := (Platform.memRead_eq_some _ _ _).1 hh
  exact header_eq_some.2 ⟨hlt, rfl, rfl⟩

/-- `frameInMemory_iff` over a frame's addresses instead of its byte numbers, which is how `frameAddress` states them. -/
theorem frameInMemory_iff_addr {p : Platform} {base size : Nat} :
    frameInMemory p base size = true ↔ ∀ addr, (∃ n < size, addr = base + n) → addr < p.romSize := by
  rw [frameInMemory_iff]
  exact ⟨fun h _ ⟨n, hn, e⟩ => e ▸ h n hn, fun h n hn => h _ ⟨n, hn, rfl⟩⟩

/-- What `draw` checks of the frames is that each frame address of the mode lies below `ROM_SIZE` (R60, R139). -/
theorem framesInMemory_iff {mode : DrawMode} {p : Platform} {o : DrawOperands} {w h : Nat} :
    framesInMemory mode p o w h = true ↔ ∀ addr, frameAddress mode o w h addr → addr < p.romSize := by
  cases mode with
  | extMask =>
    simp only [framesInMemory, Bool.and_eq_true, frameInMemory_iff_addr]
    exact ⟨fun ⟨himg, hmsk⟩ addr ha => ha.elim (himg addr) (hmsk addr),
      fun hall => ⟨fun addr ha => hall addr (.inl ha), fun addr ha => hall addr (.inr ha)⟩⟩
  | plusMask => exact frameInMemory_iff_addr
  | overwrite => exact frameInMemory_iff_addr
  | erase => exact frameInMemory_iff_addr
  | selfMask => exact frameInMemory_iff_addr

/-- A bitmap of width 0 or height 0 has frames of no bytes (R102, R110). -/
theorem frameByteSize_of_empty {w h : Nat} (he : w = 0 ∨ h = 0) : frameByteSize w h = 0 := by
  obtain rfl | rfl := he
  · exact Nat.zero_mul _
  · exact Nat.mul_zero _

/-- A DRAW of an empty bitmap has no frame address (R60, R110; log entry 20). -/
theorem not_frameAddress_of_empty {mode : DrawMode} {o : DrawOperands} {w h addr : Nat} (he : w = 0 ∨ h = 0) :
    ¬ frameAddress mode o w h addr := by
  intro ha
  have hsize := frameByteSize_of_empty he
  obtain ⟨n, hn, -⟩ | ⟨n, hn, -⟩ | ⟨n, hn, -⟩ := frameAddress_cases ha
  · omega
  · omega
  · rw [frameByteSizeCombined_eq] at hn
    omega

/-- The pixel loop over an empty bitmap has no turn (R110, R137). -/
theorem blit_of_empty (mode : DrawMode) (p : Platform) (o : DrawOperands) {w h : Nat} (fb : FrameBuffer)
    (he : w = 0 ∨ h = 0) : blit mode p o w h fb = fb := by
  have horder : drawOrder w h = [] := by
    refine List.eq_nil_iff_forall_not_mem.2 fun ij hij => ?_
    obtain ⟨hi, hj⟩ := mem_drawOrder.1 hij
    omega
  rw [blit, horder, List.foldl_nil]

end Sys2Proof.Machine

open Sys2Proof Sys2Proof.Machine

/-- Settles O29: what `draw` refuses, by its two checks; a frame address beyond memory fails the second. -/
theorem undefinedDrawsAreRefused : Obligations.UndefinedDrawsAreRefused := by
  intro i mode s hm
  rw [exec_of_drawMode hm]
  refine ⟨fun hrom => draw_of_no_header (header_eq_none.2 hrom), fun w h hw hh => ?_⟩
  have hheader := header_of_memRead hw hh
  refine ⟨fun h8 => ?height, fun h8 ⟨addr, ha, hrom⟩ => ?beyond⟩
  case height => exact draw_eq_refused.2 (.inr ⟨_, _, hheader, .inl ⟨h8, rfl⟩⟩)
  case beyond =>
    have hframes : framesInMemory mode s.platform (drawOperands s.regs) w.toNat h.toNat ≠ true :=
      fun hf => Nat.not_lt.2 hrom (framesInMemory_iff.1 hf addr ha)
    exact draw_eq_refused.2 (.inr ⟨_, _, hheader, .inr ⟨h8, hframes, rfl⟩⟩)

/-- Settles O34: an empty bitmap has no frame byte that could lie beyond memory, and no pixel to draw. -/
theorem emptyBitmapDrawsNothing : Obligations.EmptyBitmapDrawsNothing := by
  intro i s w h hi hw hh h8 hempty
  obtain ⟨mode, hm⟩ := Option.ne_none_iff_exists'.1 hi
  have he : w.toNat = 0 ∨ h.toNat = 0 := hempty.imp (congrArg BitVec.toNat) (congrArg BitVec.toNat)
  have hframes : framesInMemory mode s.platform (drawOperands s.regs) w.toNat h.toNat = true :=
    framesInMemory_iff.2 fun _ ha => absurd ha (not_frameAddress_of_empty he)
  rw [exec_of_drawMode hm]
  refine draw_eq_next.2 ⟨_, _, header_of_memRead hw hh, h8, hframes, ?_⟩
  rw [blit_of_empty _ _ _ _ he, State.setFb_self]

/-- Settles O43: the cursor of row `j` is the start of band `j / 8`, from which R104 and R105 count. -/
theorem bandCursorReadsTheSameBytes : Obligations.BandCursorReadsTheSameBytes := by
  intro base w k j
  simp only [bandCursor_eq, imgByteAddr, cmbImgByteAddr, cmbMskByteAddr, and_self]

/-- Settles O44: the frames stand end to end after the header, and `f < n`. -/
theorem framesLieInsideTheExtent : Obligations.FramesLieInsideTheExtent := by
  intro addr f n w h k hf
  simp only [imageBase, maskBase, combinedBase, bitmapExtent, maskExtent, combinedExtent]
  refine ⟨fun hk => ?single, fun hk => ?combined⟩
  case single =>
    have := frameOffset_lt hf hk
    omega
  case combined =>
    have := frameOffset_lt hf hk
    omega

end

section
/-! The frame buffer (41_framebuffer.md): the PIXEL commands (R122 to R124), FB.CLEAR (R125), and scan-out with its dump
(R129, R130). -/

namespace Sys2Proof.Machine

/-! ### Two writes in a row (R121, R124) -/

/-- Of two writes to one pixel the later decides, in bounds or not. -/
theorem fbWrite_fbWrite_same (fb : FrameBuffer) (x y : Int) (b b' : Bool) :
    fbWrite (fbWrite fb x y b) x y b' = fbWrite fb x y b' := by
  refine FrameBuffer.ext fun px py hpx hpy => ?_
  simp only [get_fbWrite _ _ _ _ hpx hpy]
  split <;> rfl

/-- Writes to different pixels commute: no pixel is the one that both write. -/
theorem fbWrite_comm (fb : FrameBuffer) {x y x' y' : Int} (b b' : Bool) (h : ¬ (x = x' ∧ y = y')) :
    fbWrite (fbWrite fb x y b) x' y' b' = fbWrite (fbWrite fb x' y' b') x y b := by
  refine FrameBuffer.ext fun px py hpx hpy => ?_
  simp only [get_fbWrite _ _ _ _ hpx hpy]
  by_cases hp : (px : Int) = x ∧ (py : Int) = y
  · have hp' : ¬ ((px : Int) = x' ∧ (py : Int) = y') := by omega
    rw [if_neg hp', if_pos hp, if_pos hp]
  · rw [if_neg hp, if_neg hp]

/-! ### The PIXEL commands -/

theorem exists_pixelCommand_of_mem {i : Instr} (h : i ∈ [Instr.pixelClr, Instr.pixelSet]) : ∃ v, i = pixelCommand v := by
  obtain rfl | rfl := List.mem_pair.1 h
  · exact ⟨false, rfl⟩
  · exact ⟨true, rfl⟩

/-- Everything a PIXEL command can do: one write at POSX, POSY (R121 to R123). -/
theorem exec_pixelCommand_next {v : Bool} {s t : State} (h : exec (pixelCommand v) s = .next t) :
    t = { s with fb := fbWrite s.fb s.regs.posx.toInt s.regs.posy.toInt v } := by
  rw [exec_pixelCommand, writePixelAtPos_eq] at h
  cases h
  rfl

/-- After a PIXEL command the pixel it names is its value and every other pixel is as before. -/
theorem pixel_of_exec_pixelCommand {v : Bool} {s t : State} (h : exec (pixelCommand v) s = .next t) {px py : Nat}
    (hpx : px < WIDTH) (hpy : py < HEIGHT) :
    t.pixel px py
      = if (px : Int) = s.regs.posx.toInt ∧ (py : Int) = s.regs.posy.toInt then v else s.pixel px py := by
  cases exec_pixelCommand_next h
  exact get_fbWrite _ _ _ _ hpx hpy

/-- A PIXEL command on the result of another with the same registers: what the first wrote is gone. -/
theorem exec_pixelCommand_twice {v v' : Bool} {s t : State} (h : exec (pixelCommand v) s = .next t) :
    exec (pixelCommand v') t = exec (pixelCommand v') s := by
  cases exec_pixelCommand_next h
  simp only [exec_pixelCommand, writePixelAtPos_eq, fbWrite_fbWrite_same]

/-- Of two PIXEL commands with the same registers, in bounds, the later decides the pixel (R124). -/
theorem later_pixelCommand_decides {v v' : Bool} {s t u : State}
    (hin : inBounds s.regs.posx.toInt s.regs.posy.toInt) (h : exec (pixelCommand v) s = .next t)
    (h' : exec (pixelCommand v') t = .next u) : u.pixel s.regs.posx.toInt.toNat s.regs.posy.toInt.toNat = v' := by
  obtain ⟨hx, hx', hy, hy'⟩ := hin
  rw [exec_pixelCommand_twice h] at h'
  rw [pixel_of_exec_pixelCommand h' (by omega) (by omega), if_pos (by omega)]

/-! ### The states FB.CLEAR alone changes (R125) -/

/-- After reset, POSX one column right of the buffer: PIXEL is out of bounds, bitmap and rectangles are empty. -/
def inertState (fb : FrameBuffer) : State :=
  (State.powerOn Config.resetPlatform fb).setRegs { OperandRegs.zero with posx := 128 }

theorem exec_pixelCommand_inertState (v : Bool) (fb : FrameBuffer) :
    exec (pixelCommand v) (inertState fb) = .next (inertState fb) := by
  have hout : ¬ inBounds (drawOperands (inertState fb).regs).x (drawOperands (inertState fb).regs).y := by
    change ¬ inBounds (sext16 128) (sext16 0)
    decide
  rw [exec_pixelCommand, writePixelAtPos, fbWrite_outside _ _ hout, State.setFb_self]

/-- No command but FB.CLEAR changes such a state. -/
theorem exec_inertState {i : Instr} (hi : i ≠ .fbClear) (fb : FrameBuffer) :
    exec i (inertState fb) = .next (inertState fb) := by
  have hdraw (hm : i.drawMode ≠ none) : exec i (inertState fb) = .next (inertState fb) :=
    emptyBitmapDrawsNothing i (inertState fb) 0 0 hm rfl rfl rfl (.inl rfl)
  cases i with
  | pixelClr => exact exec_pixelCommand_inertState false fb
  | pixelSet => exact exec_pixelCommand_inertState true fb
  | fbClear => exact absurd rfl hi
  | collide => rfl
  | _ => exact hdraw nofun

/-! ### Scan-out (R129, R130) -/

/-- A scan-out read hands the host one bit and changes nothing of the SBE. -/
theorem step_of_fbRead {s : State} {n : PixelIndex} {rest : List Transaction} (hp : s.pending = .fbRead n :: rest) :
    step s = .next ((s.setPending rest).reply (.pixel (fbRead s.fb n))) :=
  step_of_pending hp

theorem scanOut_length (fb : FrameBuffer) : (scanOut fb).length = WIDTH * HEIGHT := by
  rw [scanOut, List.length_map, List.length_range]

/-- Entry `n` of the scan-out is `FbRead(n)`. -/
theorem scanOut_getElem? (fb : FrameBuffer) (n : PixelIndex) : (scanOut fb)[n.toNat]? = some (fbRead fb n) := by
  have hn : n.toNat < WIDTH * HEIGHT := n.isLt
  rw [scanOut, List.getElem?_map, List.getElem?_range hn, Option.map_some, BitVec.ofNat_toNat, BitVec.setWidth_eq]

theorem dumpSample_eq (b : Bool) : dumpSample b = 255 * b.toNat := by cases b <;> rfl

theorem dumpNumbers_length (fb : FrameBuffer) : (dumpNumbers fb).length = 3 + 8192 := by
  simp only [dumpNumbers, List.length_cons, List.length_map, scanOut_length, WIDTH, HEIGHT]

/-- After the three numbers of its head the dump has one sample for each bit of the scan-out. -/
theorem dumpNumbers_getElem? (fb : FrameBuffer) (n : PixelIndex) :
    (dumpNumbers fb)[3 + n.toNat]? = some (255 * (fbRead fb n).toNat) := by
  simp only [dumpNumbers, Nat.add_comm 3, List.getElem?_cons_succ, List.getElem?_map, scanOut_getElem?,
    Option.map_some, dumpSample_eq]

end Sys2Proof.Machine

open Sys2Proof Sys2Proof.Machine

/-- Settles O19: one `FbWrite` of 0 at POSX, POSY. -/
theorem pixelClrResult : Obligations.PixelClrResult :=
  ⟨rfl, fun s => ⟨fbWrite s.fb s.regs.posx.toInt s.regs.posy.toInt false,
    congrArg _ (writePixelAtPos_eq false s), fun _ _ => get_fbWrite _ _ _ _, fbWrite_outside _ _⟩⟩

/-- Settles O20: one `FbWrite` of 1 at POSX, POSY. -/
theorem pixelSetResult : Obligations.PixelSetResult :=
  ⟨rfl, fun s => ⟨fbWrite s.fb s.regs.posx.toInt s.regs.posy.toInt true,
    congrArg _ (writePixelAtPos_eq true s), fun _ _ => get_fbWrite _ _ _ _, fbWrite_outside _ _⟩⟩

/-- Settles O21: a PIXEL command is one write, the later of two writes to a pixel decides it, and writes to different
pixels commute. -/
theorem pixelCommandLaws : Obligations.PixelCommandLaws := by
  refine ⟨fun i hi s t h => ?single, fun s t u hin => ?lastWins,
    fun i hi j hj s t u t' u' g g' hne h1 h2 h1' h2' => ?commute⟩
  case single =>
    obtain ⟨v, rfl⟩ := exists_pixelCommand_of_mem hi
    refine ⟨(exec_pixelCommand_twice h).trans h, fun px py hpx hpy hother => ?_⟩
    rw [pixel_of_exec_pixelCommand h hpx hpy, if_neg hother]
  case lastWins =>
    exact ⟨later_pixelCommand_decides (v := true) (v' := false) hin,
      later_pixelCommand_decides (v := false) (v' := true) hin⟩
  case commute =>
    obtain ⟨v, rfl⟩ := exists_pixelCommand_of_mem hi
    obtain ⟨v', rfl⟩ := exists_pixelCommand_of_mem hj
    cases exec_pixelCommand_next h1
    cases exec_pixelCommand_next h2
    cases exec_pixelCommand_next h1'
    cases exec_pixelCommand_next h2'
    exact fbWrite_comm _ _ _ (by simpa only [BitVec.toInt_inj] using hne)

/-- Settles O59: three fixed numbers, then the scan-out with each bit as a sample. -/
theorem dumpNumbers : Obligations.DumpNumbers :=
  fun fb => ⟨dumpNumbers_length fb, rfl, dumpNumbers_getElem? fb⟩

/-- Settles O17: the index of the pixel `(x, y)` is its linear number. -/
theorem scanOutRead : Obligations.ScanOutRead := by
  refine fun s n rest hp => ⟨step_of_fbRead hp, fun x y hx _ hn => ?_⟩
  rw [step_of_fbRead hp, fbRead_pixelNumber s.fb hx n hn]
  rfl

/-- Settles O22: FB.CLEAR puts the one cleared buffer in place of any other; each other command keeps both of two inert
states. -/
theorem fbClearResult : Obligations.FbClearResult := by
  refine ⟨rfl, fun s => ⟨fbCleared, rfl, fun px py _ _ => get_fbCleared px py, fun n => get_fbCleared _ _,
    fun _ => rfl⟩, fun i hi => ?others⟩
  have hne : (1 : FrameBuffer) ≠ 0 := by simp
  exact ⟨inertState 0, 1, hne, exec_inertState hi 0, exec_inertState hi 1⟩

end

section
/-! The blit (42_blit.md): when a DRAW is defined (R139), what each mode draws (R141 to R145), what it leaves as it is
(R147, R150), and how two DRAWs combine (R149, R151). The address formulas that R141 to R145 print are the definitions of
R103 to R106 written out, so the modes' results follow from `drawsPixels_combine` by unfolding alone. -/

namespace Sys2Proof.Machine

/-! ### The combination rule (R136) -/

theorem combine_extMask (img msk dst : Bool) : combine .extMask img msk dst = if msk then img else dst := rfl

theorem combine_erase (img msk dst : Bool) : combine .erase img msk dst = (!img && dst) := by cases img <;> rfl

theorem combine_selfMask (img msk dst : Bool) : combine .selfMask img msk dst = (img || dst) := by cases img <;> rfl

/-- With the image bit as its own mask bit, External Mask combines as Self-Masked does (R141). -/
theorem combine_extMask_self (img msk dst : Bool) : combine .extMask img img dst = combine .selfMask img msk dst := by
  cases img <;> rfl

/-- Erase after Self-Masked with the same image bit (R149). -/
theorem combine_erase_combine_selfMask (img msk msk' dst : Bool) :
    combine .erase img msk (combine .selfMask img msk' dst) = (!img && dst) := by cases img <;> rfl

/-- Combining a second time with the same source bits changes nothing (R149). -/
theorem combine_combine_same (mode : DrawMode) (img msk dst : Bool) :
    combine mode img msk (combine mode img msk dst) = combine mode img msk dst := by
  cases mode with
  | extMask => cases msk <;> rfl
  | plusMask => cases msk <;> rfl
  | overwrite => rfl
  | erase => cases img <;> rfl
  | selfMask => cases img <;> rfl

/-- A mode in which the order of two combinations does not matter. -/
def CombinesInAnyOrder (mode : DrawMode) : Prop :=
  ∀ img msk img' msk' dst : Bool,
    combine mode img msk (combine mode img' msk' dst) = combine mode img' msk' (combine mode img msk dst)

theorem selfMask_combinesInAnyOrder : CombinesInAnyOrder .selfMask := by
  intro img msk img' msk' dst
  simp only [combine_selfMask, Bool.or_left_comm]

theorem erase_combinesInAnyOrder : CombinesInAnyOrder .erase := by
  intro img msk img' msk' dst
  simp only [combine_erase, Bool.and_left_comm]

/-! ### The buffer after a pixel loop, as a whole -/

section
variable (p : Platform) (o : DrawOperands) (w h : Nat)

/-- A pixel of the buffer is the destination of one source pixel, in every mode and whatever the buffer holds, or of none
(R137, R146). -/
theorem get_blit_cases {px py : Nat} (hpx : px < WIDTH) (hpy : py < HEIGHT) :
    (∃ i j : Nat, i < w ∧ j < h ∧ ∀ mode fb, FrameBuffer.get (blit mode p o w h fb) px py
        = combine mode (srcImg mode p o w h i j) (srcMsk mode p o w h i j) (FrameBuffer.get fb px py))
      ∨ ∀ mode fb, FrameBuffer.get (blit mode p o w h fb) px py = FrameBuffer.get fb px py := by
  by_cases hin : o.x ≤ px ∧ (px : Int) < o.x + w ∧ o.y ≤ py ∧ (py : Int) < o.y + h
  · refine .inl ⟨sourceIndex px o.x, sourceIndex py o.y, ?_, ?_, fun mode fb => ?_⟩
    · simp only [sourceIndex]
      omega
    · simp only [sourceIndex]
      omega
    · rw [get_blit mode p o w h fb hpx hpy, if_pos hin]
  · exact .inr fun mode fb => get_blit_outside mode p o fb hpx hpy hin

variable (fb : FrameBuffer)

/-- Two modes that combine each source pixel of the frame alike draw the same buffer. -/
theorem blit_congr {mode mode' : DrawMode}
    (hsame : ∀ i j : Nat, i < w → j < h → ∀ dst,
      combine mode (srcImg mode p o w h i j) (srcMsk mode p o w h i j) dst
        = combine mode' (srcImg mode' p o w h i j) (srcMsk mode' p o w h i j) dst) :
    blit mode p o w h fb = blit mode' p o w h fb := by
  refine FrameBuffer.ext fun px py hpx hpy => ?_
  obtain ⟨i, j, hi, hj, hp⟩ | hp := get_blit_cases p o w h hpx hpy
  · rw [hp, hp, hsame i j hi hj]
  · rw [hp, hp]

/-- A loop whose every combination keeps the destination's bit keeps the buffer. -/
theorem blit_eq_self_of_combine {mode : DrawMode}
    (hkeep : ∀ i j : Nat, i < w → j < h → ∀ dst,
      combine mode (srcImg mode p o w h i j) (srcMsk mode p o w h i j) dst = dst) :
    blit mode p o w h fb = fb := by
  refine FrameBuffer.ext fun px py hpx hpy => ?_
  obtain ⟨i, j, hi, hj, hp⟩ | hp := get_blit_cases p o w h hpx hpy
  · rw [hp, hkeep i j hi hj]
  · exact hp mode fb

/-- A loop over a rectangle that misses the buffer keeps it (R138, R147). -/
theorem blit_eq_self_of_outside (mode : DrawMode)
    (hout : 128 ≤ o.x ∨ o.x + w ≤ 0 ∨ 64 ≤ o.y ∨ o.y + h ≤ 0) : blit mode p o w h fb = fb := by
  refine FrameBuffer.ext fun px py hpx hpy => ?_
  simp only [WIDTH, HEIGHT] at hpx hpy
  exact get_blit_outside mode p o fb hpx hpy (by omega)

/-- The same loop a second time changes nothing (R149). -/
theorem blit_blit_same (mode : DrawMode) : blit mode p o w h (blit mode p o w h fb) = blit mode p o w h fb := by
  refine FrameBuffer.ext fun px py hpx hpy => ?_
  obtain ⟨i, j, -, -, hp⟩ | hp := get_blit_cases p o w h hpx hpy
  · rw [hp, hp, combine_combine_same]
  · exact hp mode _

/-- In a mode whose combinations commute, two loops with any operands commute: a pixel in both rectangles is combined
twice, every other pixel at most once (R151). -/
theorem blit_comm {mode : DrawMode} (hcomm : CombinesInAnyOrder mode) (o' : DrawOperands) (w' h' : Nat) :
    blit mode p o w h (blit mode p o' w' h' fb) = blit mode p o' w' h' (blit mode p o w h fb) := by
  refine FrameBuffer.ext fun px py hpx hpy => ?_
  obtain ⟨i, j, -, -, hp⟩ | hp := get_blit_cases p o w h hpx hpy
  · obtain ⟨i', j', -, -, hp'⟩ | hp' := get_blit_cases p o' w' h' hpx hpy
    · rw [hp, hp', hp', hp, hcomm]
    · rw [hp, hp', hp', hp]
  · rw [hp]
    obtain ⟨i', j', -, -, hp'⟩ | hp' := get_blit_cases p o' w' h' hpx hpy
    · rw [hp', hp', hp]
    · rw [hp', hp', hp]

end

/-! ### When a DRAW is defined (R139) -/

/-- The two header bytes are what the header was decoded from (R101). -/
theorem memRead_of_header {p : Platform} {bitmap w h : Nat} (hh : header p bitmap = some (w, h)) :
    ∃ bw bh : Byte, p.memRead bitmap = some bw ∧ p.memRead (bitmap + 1) = some bh ∧ bw.toNat = w ∧ bh.toNat = h := by
  obtain ⟨hlt, hw, hh⟩ := header_eq_some.1 hh
  exact ⟨_, _, (Platform.memRead_eq_some _ _ _).2 ⟨Nat.lt_of_succ_lt hlt, rfl⟩,
    (Platform.memRead_eq_some _ _ _).2 ⟨hlt, rfl⟩, hw, hh⟩

/-- R139's condition is what `draw` checks. -/
theorem drawDefined_iff {mode : DrawMode} {s : State} :
    drawDefined mode s
      ↔ ∃ w h, header s.platform s.regs.bmp.toNat = some (w, h) ∧ h % 8 = 0
          ∧ framesInMemory mode s.platform (drawOperands s.regs) w h = true := by
  constructor
  · rintro ⟨w, h, hw, hh, h8, hmem⟩
    exact ⟨_, _, header_of_memRead hw hh, h8, framesInMemory_iff.2 hmem⟩
  · rintro ⟨w, h, hheader, h8, hf⟩
    obtain ⟨bw, bh, hw, hh, rfl, rfl⟩ := memRead_of_header hheader
    exact ⟨bw, bh, hw, hh, h8, framesInMemory_iff.1 hf⟩

/-! ### What a completed DRAW leaves -/

@[simp] theorem drawOperands_x (g : OperandRegs) : (drawOperands g).x = g.posx.toInt := sext16_eq_toInt g.posx
@[simp] theorem drawOperands_y (g : OperandRegs) : (drawOperands g).y = g.posy.toInt := sext16_eq_toInt g.posy

section
variable {i : Instr} {mode : DrawMode} {s t : State} {w h : Nat}

/-- `draw_eq_next` for the command. -/
theorem exec_draw_eq_next (hm : i.drawMode = some mode) :
    exec i s = .next t
      ↔ ∃ w h, header s.platform s.regs.bmp.toNat = some (w, h) ∧ h % 8 = 0
          ∧ framesInMemory mode s.platform (drawOperands s.regs) w h = true
          ∧ t = s.setFb (blit mode s.platform (drawOperands s.regs) w h s.fb) := by
  rw [exec_of_drawMode hm]
  exact draw_eq_next

/-- Where the header is known, the one state a DRAW can answer (R137). -/
theorem eq_setFb_of_exec_draw (hm : i.drawMode = some mode) (ht : exec i s = .next t)
    (hh : header s.platform s.regs.bmp.toNat = some (w, h)) :
    t = s.setFb (blit mode s.platform (drawOperands s.regs) w h s.fb) := by
  obtain ⟨w', h', hh', -, -, rfl⟩ := (exec_draw_eq_next hm).1 ht
  cases hh.symm.trans hh'
  rfl

/-- A completed DRAW leaves in the destination of source pixel `(k, j)` the combination of its bits (R136, R137). -/
theorem pixel_of_exec_draw (hm : i.drawMode = some mode) (ht : exec i s = .next t)
    (hh : header s.platform s.regs.bmp.toNat = some (w, h)) {px py : Nat} (hpx : px < WIDTH) (hpy : py < HEIGHT)
    {k j : Nat} (hk : k < w) (hj : j < h)
    (hx : (px : Int) = s.regs.posx.toInt + k) (hy : (py : Int) = s.regs.posy.toInt + j) :
    t.pixel px py
      = combine mode (srcImg mode s.platform (drawOperands s.regs) w h k j)
          (srcMsk mode s.platform (drawOperands s.regs) w h k j) (s.pixel px py) := by
  cases eq_setFb_of_exec_draw hm ht hh
  exact get_blit_destination mode _ _ _ hpx hpy hk hj (by rwa [drawOperands_x]) (by rwa [drawOperands_y])

/-- A completed DRAW keeps every pixel outside its rectangle (R150). -/
theorem pixel_of_exec_draw_outside (hm : i.drawMode = some mode) (ht : exec i s = .next t)
    (hh : header s.platform s.regs.bmp.toNat = some (w, h)) {px py : Nat} (hpx : px < WIDTH)
    (hpy : py < HEIGHT)
    (hout : ¬ (s.regs.posx.toInt ≤ px ∧ (px : Int) < s.regs.posx.toInt + w
      ∧ s.regs.posy.toInt ≤ py ∧ (py : Int) < s.regs.posy.toInt + h)) :
    t.pixel px py = s.pixel px py := by
  cases eq_setFb_of_exec_draw hm ht hh
  exact get_blit_outside mode _ _ _ hpx hpy (by rwa [drawOperands_x, drawOperands_y])

/-- Each pixel after a completed DRAW is combined with some source bits, or kept. -/
theorem pixel_of_exec_draw_cases (hm : i.drawMode = some mode) (ht : exec i s = .next t) {px py : Nat}
    (hpx : px < WIDTH) (hpy : py < HEIGHT) :
    (∃ img msk, t.pixel px py = combine mode img msk (s.pixel px py)) ∨ t.pixel px py = s.pixel px py := by
  obtain ⟨w, h, -, -, -, rfl⟩ := (exec_draw_eq_next hm).1 ht
  obtain ⟨k, j, -, -, hp⟩ | hp := get_blit_cases s.platform (drawOperands s.regs) w h hpx hpy
  · exact .inl ⟨_, _, hp mode s.fb⟩
  · exact .inr (hp mode s.fb)

/-- Two completed DRAWs of one mode leave the buffer of their loops, one after the other (R151). -/
theorem fb_of_exec_draw_draw (hm : i.drawMode = some mode) {u : State} {g g' : OperandRegs} {w' h' : Nat}
    (h1 : exec i { s with regs := g } = .next t) (h2 : exec i { t with regs := g' } = .next u)
    (hh : header s.platform g.bmp.toNat = some (w, h)) (hh' : header s.platform g'.bmp.toNat = some (w', h')) :
    u.fb = blit mode s.platform (drawOperands g') w' h' (blit mode s.platform (drawOperands g) w h s.fb) := by
  cases eq_setFb_of_exec_draw hm h1 hh
  cases eq_setFb_of_exec_draw hm h2 hh'
  rfl

/-- A DRAW whose header is read, whose height is a multiple of 8 and whose frames lie in memory completes, and combines
exactly the destinations of its source pixels (R137, R139, R150). -/
theorem drawsPixels_combine (hm : i.drawMode = some mode) {w h : Byte}
    (hw : s.platform.memRead s.regs.bmp.toNat = some w) (hh : s.platform.memRead (s.regs.bmp.toNat + 1) = some h)
    (h8 : h.toNat % 8 = 0)
    (hf : framesInMemory mode s.platform (drawOperands s.regs) w.toNat h.toNat = true) :
    drawsPixels i s w.toNat h.toNat fun k j dst =>
      combine mode (srcImg mode s.platform (drawOperands s.regs) w.toNat h.toNat k j)
        (srcMsk mode s.platform (drawOperands s.regs) w.toNat h.toNat k j) dst := by
  have hheader := header_of_memRead hw hh
  have ht := (exec_draw_eq_next hm).2 ⟨_, _, hheader, h8, hf, rfl⟩
  exact ⟨_, ht, fun px py hpx hpy => ⟨fun k j => pixel_of_exec_draw hm ht hheader hpx hpy,
    pixel_of_exec_draw_outside hm ht hheader hpx hpy⟩⟩

end

/-! ### Two modes compared on one state -/

/-- Two modes answer alike where, on a decoded bitmap, they need the same memory and draw the same buffer. -/
theorem draw_congr_mode {mode mode' : DrawMode} {s : State}
    (hsame : ∀ w h, header s.platform s.regs.bmp.toNat = some (w, h) → h % 8 = 0 →
      framesInMemory mode s.platform (drawOperands s.regs) w h
          = framesInMemory mode' s.platform (drawOperands s.regs) w h
        ∧ blit mode s.platform (drawOperands s.regs) w h s.fb = blit mode' s.platform (drawOperands s.regs) w h s.fb) :
    draw mode s = draw mode' s := by
  rcases hh : header s.platform (drawOperands s.regs).bitmap with _ | ⟨w, h⟩
  · rw [draw_of_no_header hh, draw_of_no_header hh]
  · rw [draw_of_header hh, draw_of_header hh]
    by_cases h8 : h % 8 = 0
    · obtain ⟨hframes, hblit⟩ := hsame w h hh h8
      rw [hframes, hblit]
    · rw [if_pos h8, if_pos h8]

/-- The mask bit of a source pixel is a bit of one of the mask frame's bytes (R104, R106). -/
theorem mskPixel_eq_bit_of_frame (p : Platform) (mask maskFrame : Nat) {w h k j : Nat} (h8 : h % 8 = 0) (hk : k < w)
    (hj : j < h) :
    ∃ n < w * (h / 8), ∃ r < 8, mskPixel p mask maskFrame w h k j
      = (p.byteAt (mask + maskFrame * (w * (h / 8)) + n)).getLsbD r := by
  refine ⟨_, byteOffset_lt h8 hk hj, j % 8, Nat.mod_lt _ (by decide), ?_⟩
  rw [← Nat.add_assoc]
  rfl

/-! ### Overwrite draws that do not commute (R151) -/

/-- A bitmap 1 pixel wide and 8 high at address 0: frame 0 is all 1s, every other frame all 0s. -/
def stripePlatform : Platform := ⟨16, 256, [(0, 1), (1, 8), (2, 0xFF)]⟩

/-- The operands that draw the stripe's frame of this colour at (0, 0). -/
def stripeRegs (v : Bool) : OperandRegs := { OperandRegs.zero with frm := if v then 0 else 1 }

/-- Whatever the buffer holds, Overwrite with a stripe leaves the stripe's colour in pixel (0, 0). -/
theorem exec_overwrite_stripe (v : Bool) {s : State} (hs : s.platform = stripePlatform) :
    ∃ t, exec .drawOverwrite { s with regs := stripeRegs v } = .next t ∧ t.platform = stripePlatform
      ∧ t.pixel 0 0 = v := by
  have hheader : header s.platform (stripeRegs v).bmp.toNat = some (1, 8) := by rw [hs]; rfl
  have hframes : framesInMemory .overwrite s.platform (drawOperands (stripeRegs v)) 1 8 = true := by
    rw [hs]
    cases v <;> decide
  have himg : srcImg .overwrite s.platform (drawOperands (stripeRegs v)) 1 8 0 0 = v := by
    rw [hs]
    cases v <;> decide
  have hdraw : Instr.drawMode .drawOverwrite = some .overwrite := rfl
  obtain ⟨t, ht⟩ : ∃ t, exec .drawOverwrite { s with regs := stripeRegs v } = .next t :=
    ⟨_, (exec_draw_eq_next hdraw).2 ⟨1, 8, hheader, rfl, hframes, rfl⟩⟩
  obtain ⟨-, hplatform, -, -⟩ := exec_frame ht
  have hpixel := pixel_of_exec_draw hdraw ht hheader (px := 0) (py := 0) (k := 0) (j := 0) (by decide) (by decide)
    (by decide) (by decide) rfl rfl
  exact ⟨t, ht, hplatform.trans hs, hpixel.trans himg⟩

end Sys2Proof.Machine

open Sys2Proof Sys2Proof.Machine

/-- Settles O23: External Mask, with the image's and the mask's frame in memory. -/
theorem drawExtmaskResult : Obligations.DrawExtmaskResult := by
  refine ⟨rfl, fun s w h hw hh h8 hmem => ?_⟩
  have himg := frameInMemory_iff.2 fun n hn => (hmem n hn).1
  have hmsk := frameInMemory_iff.2 fun n hn => (hmem n hn).2
  exact drawsPixels_combine (mode := .extMask) rfl hw hh h8 (Bool.and_eq_true_iff.2 ⟨himg, hmsk⟩)

/-- Settles O24: Plus Mask, with the combined frame in memory. -/
theorem drawPlusmaskResult : Obligations.DrawPlusmaskResult :=
  ⟨rfl, fun _ _ _ hw hh h8 hmem => drawsPixels_combine (mode := .plusMask) rfl hw hh h8 (frameInMemory_iff.2 hmem)⟩

/-- Settles O25: Overwrite, with the image's frame in memory. -/
theorem drawOverwriteResult : Obligations.DrawOverwriteResult :=
  ⟨rfl, fun _ _ _ hw hh h8 hmem => drawsPixels_combine (mode := .overwrite) rfl hw hh h8 (frameInMemory_iff.2 hmem)⟩

/-- Settles O26: Erase, with the image's frame in memory. -/
theorem drawEraseResult : Obligations.DrawEraseResult :=
  ⟨rfl, fun _ _ _ hw hh h8 hmem => drawsPixels_combine (mode := .erase) rfl hw hh h8 (frameInMemory_iff.2 hmem)⟩

/-- Settles O27: Self-Masked, with the image's frame in memory. -/
theorem drawSelfmaskResult : Obligations.DrawSelfmaskResult :=
  ⟨rfl, fun _ _ _ hw hh h8 hmem => drawsPixels_combine (mode := .selfMask) rfl hw hh h8 (frameInMemory_iff.2 hmem)⟩

/-- Settles O28: R139's condition and the checks of `draw` are the same. -/
theorem drawDefinedExactly : Obligations.DrawDefinedExactly := by
  intro i mode s hm
  rw [exec_of_drawMode hm, draw_completes_iff, drawDefined_iff]
  rfl

/-- Settles O33: a DRAW answers the state with another buffer, and its loop reaches no pixel outside the rectangle. -/
theorem drawFrame : Obligations.DrawFrame := by
  intro i s t w h hi hh ht
  obtain ⟨mode, hm⟩ := Option.ne_none_iff_exists'.1 hi
  refine ⟨?frame, fun px py hpx hpy => pixel_of_exec_draw_outside hm ht hh hpx hpy⟩
  cases eq_setFb_of_exec_draw hm ht hh
  rfl

/-- Settles O35: a defined DRAW completes, and the loop over a rectangle that misses the buffer keeps it. -/
theorem drawOutsideChangesNothing : Obligations.DrawOutsideChangesNothing := by
  intro i mode s w h hm hd hh hout
  obtain ⟨h8, hmem⟩ := drawDefined_of_header hd hh
  refine (exec_draw_eq_next hm).2 ⟨w, h, hh, h8, framesInMemory_iff.2 hmem, ?_⟩
  rw [blit_eq_self_of_outside _ _ _ _ _ _ (by rwa [drawOperands_x, drawOperands_y]), State.setFb_self]

/-- Settles O36: the second DRAW is defined as the first was, and every mode's combination is idempotent. -/
theorem drawTwiceIsDrawOnce : Obligations.DrawTwiceIsDrawOnce := by
  intro i s t hi ht
  obtain ⟨mode, hm⟩ := Option.ne_none_iff_exists'.1 hi
  rw [exec_of_drawMode hm] at ht ⊢
  obtain ⟨w, h, hh, h8, hf, rfl⟩ := draw_eq_next.1 ht
  rw [draw_setFb hh h8 hf, blit_blit_same]

/-- Settles O37: the two modes read the same frame; Self-Masked is `img || dst` and Erase `!img && dst`. -/
theorem selfMaskThenErase : Obligations.SelfMaskThenErase := by
  refine ⟨fun s t ht px py hpx hpy hset => ?eraseOnlyClears,
    fun s t w h hh ht => ⟨fun px py hpx hpy hset => ?selfMaskOnlySets, ?eraseAfter⟩⟩
  case eraseOnlyClears =>
    obtain ⟨img, msk, hp⟩ | hp := pixel_of_exec_draw_cases (mode := .erase) rfl ht hpx hpy
    · rw [hp, combine_erase, Bool.and_eq_true] at hset
      exact hset.2
    · rwa [hp] at hset
  case selfMaskOnlySets =>
    obtain ⟨img, msk, hp⟩ | hp := pixel_of_exec_draw_cases (mode := .selfMask) rfl ht hpx hpy
    · rw [hp, combine_selfMask, hset, Bool.or_true]
    · rwa [hp]
  case eraseAfter =>
    obtain ⟨w', h', hh', h8, hf, rfl⟩ := (exec_draw_eq_next (mode := .selfMask) rfl).1 ht
    cases hh.symm.trans hh'
    have hf' : framesInMemory .erase s.platform (drawOperands s.regs) w h = true := hf
    have hu : exec .drawErase (s.setFb (blit .selfMask s.platform (drawOperands s.regs) w h s.fb)) = .next _ :=
      draw_setFb hh h8 hf' _
    refine ⟨_, hu, fun px py hpx hpy => ⟨fun k j hk hj hx hy => ?inside, fun hout => ?outside⟩⟩
    case inside =>
      rw [pixel_of_exec_draw (mode := .erase) rfl hu hh hpx hpy hk hj hx hy,
        pixel_of_exec_draw (mode := .selfMask) rfl ht hh hpx hpy hk hj hx hy]
      exact combine_erase_combine_selfMask _ _ _ _
    case outside =>
      rw [pixel_of_exec_draw_outside (mode := .erase) rfl hu hh hpx hpy hout,
        pixel_of_exec_draw_outside (mode := .selfMask) rfl ht hh hpx hpy hout]

/-- Settles O38: with the mask frame in memory External Mask needs the memory Overwrite needs; a mask bit of 1 takes the
image bit, one of 0 keeps the destination. -/
theorem extmaskWithUniformMask : Obligations.ExtmaskWithUniformMask := by
  intro s w h hh hmem
  refine ⟨fun hones => ?ones, fun hzeros hd => ?zeros⟩
  case ones =>
    refine draw_congr_mode (mode := .extMask) (mode' := .overwrite) fun w' h' hh' h8 => ?_
    cases hh.symm.trans hh'
    refine ⟨?_, blit_congr _ _ _ _ _ fun i j hi hj dst => ?_⟩
    · have hmask := frameInMemory_iff.2 hmem
      exact (congrArg _ hmask).trans (Bool.and_true _)
    · obtain ⟨n, hn, r, hr, hbit⟩ := mskPixel_eq_bit_of_frame s.platform s.regs.msk.toNat s.regs.mfrm.toNat h8 hi hj
      have hall : ∀ r < 8, (0xFF#8).getLsbD r = true := by decide
      rw [hones n hn, hall r hr] at hbit
      rw [combine_extMask]
      exact if_pos hbit
  case zeros =>
    obtain ⟨h8, haddr⟩ := drawDefined_of_header hd hh
    refine (exec_draw_eq_next (mode := .extMask) rfl).2 ⟨w, h, hh, h8, framesInMemory_iff.2 haddr, ?_⟩
    rw [blit_eq_self_of_combine _ _ _ _ _ fun i j hi hj dst => ?_, State.setFb_self]
    obtain ⟨n, hn, r, -, hbit⟩ := mskPixel_eq_bit_of_frame s.platform s.regs.msk.toNat s.regs.mfrm.toNat h8 hi hj
    rw [hzeros n hn, BitVec.getLsbD_zero] at hbit
    rw [combine_extMask]
    exact if_neg (Bool.eq_false_iff.1 hbit)

/-- Settles O39: the mask frame is the image frame, so the same memory is needed and each mask bit is its image bit. -/
theorem imageAsItsOwnMask : Obligations.ImageAsItsOwnMask := by
  intro s hmsk hmfrm
  refine draw_congr_mode (mode := .extMask) (mode' := .selfMask) fun w h _ _ => ?_
  have hbase : maskBase s.regs.msk.toNat s.regs.mfrm.toNat w h = imageBase s.regs.bmp.toNat s.regs.frm.toNat w h := by
    rw [maskBase, imageBase, hmsk, hmfrm]
  refine ⟨?_, blit_congr _ _ _ _ _ fun i j _ _ dst => ?_⟩
  · simp only [framesInMemory, drawOperands, hbase, Bool.and_self]
  · have hbit : srcMsk .extMask s.platform (drawOperands s.regs) w h i j
        = srcImg .extMask s.platform (drawOperands s.regs) w h i j := by
      simp only [srcMsk, srcImg, mskPixel, drawOperands, hbase]
    rw [hbit]
    exact combine_extMask_self _ _ _

/-- Settles O40: scan-out index `n` reads pixel `(n % 128, n / 128)`, which at origin (0, 0) is source pixel
`(n % 128, n / 128)` if that is one. -/
theorem overwriteRoundTrip : Obligations.OverwriteRoundTrip := by
  intro s t w h hx0 hy0 hh _ _ ht n
  have hx : s.regs.posx.toInt = 0 := by rw [hx0]; rfl
  have hy : s.regs.posy.toInt = 0 := by rw [hy0]; rfl
  have hn := n.isLt
  have hpx : n.toNat % 128 < 128 := Nat.mod_lt _ (by decide)
  have hpy : n.toNat / 128 < 64 := by omega
  refine ⟨fun ⟨hk, hj⟩ => ?inside, fun hout => ?outside⟩
  case inside =>
    change t.pixel (n.toNat % 128) (n.toNat / 128) = _
    exact pixel_of_exec_draw (mode := .overwrite) rfl ht hh hpx hpy hk hj (by omega) (by omega)
  case outside =>
    change t.pixel (n.toNat % 128) (n.toNat / 128) = s.pixel (n.toNat % 128) (n.toNat / 128)
    exact pixel_of_exec_draw_outside (mode := .overwrite) rfl ht hh hpx hpy (by omega)

/-- Settles O42: Self-Masked and Erase are modes whose loops commute; two Overwrite draws of different colour to the same
pixel leave the later one's. -/
theorem drawComposition : Obligations.DrawComposition := by
  refine ⟨fun i hi s t u t' u' g g' h1 h2 h1' h2' => ?commute, ?overwrite⟩
  case commute =>
    obtain ⟨mode, hm, hcomm⟩ : ∃ mode, i.drawMode = some mode ∧ CombinesInAnyOrder mode := by
      obtain rfl | rfl := List.mem_pair.1 hi
      · exact ⟨.selfMask, rfl, selfMask_combinesInAnyOrder⟩
      · exact ⟨.erase, rfl, erase_combinesInAnyOrder⟩
    obtain ⟨w, h, hh, -⟩ := (exec_draw_eq_next hm).1 h1
    obtain ⟨w', h', hh', -⟩ := (exec_draw_eq_next hm).1 h1'
    rw [fb_of_exec_draw_draw hm h1 h2 hh hh', fb_of_exec_draw_draw hm h1' h2' hh' hh]
    exact blit_comm _ _ _ _ _ hcomm _ _ _
  case overwrite =>
    have hs : (State.powerOn stripePlatform 0).platform = stripePlatform := rfl
    obtain ⟨t, h1, ht, -⟩ := exec_overwrite_stripe true hs
    obtain ⟨u, h2, -, hu⟩ := exec_overwrite_stripe false ht
    obtain ⟨t', h1', ht', -⟩ := exec_overwrite_stripe false hs
    obtain ⟨u', h2', -, hu'⟩ := exec_overwrite_stripe true ht'
    refine ⟨_, t, u, t', u', _, _, h1, h2, h1', h2', fun hfb => ?_⟩
    have hpixel : u.pixel 0 0 = u'.pixel 0 0 := congrArg (FrameBuffer.get · 0 0) hfb
    rw [hu, hu'] at hpixel
    cases hpixel

end

section
/-! The collision test (43_collide.md): the function `collide` (R160) with its corner cases (R162), and COLLIDE, whose
result the host reads in STATUS (R161). -/

namespace Sys2Proof.Machine

/-! ### The comparison, axis by axis -/

/-- `collide` is the comparison that R160 prints. -/
theorem collide_iff {r1 r2 : Rect} :
    collide r1 r2 = true
      ↔ r1.w > 0 ∧ r1.h > 0 ∧ r2.w > 0 ∧ r2.h > 0 ∧ r2.x < r1.x + r1.w ∧ r2.x + r2.w > r1.x
        ∧ r2.y < r1.y + r1.h ∧ r2.y + r2.h > r1.y :=
  decide_eq_true_iff

/-- Two spans of one axis, of `m` pixels from `a` and of `n` pixels from `b`, overlap (R160). -/
def SpansOverlap (a : Int) (m : Nat) (b : Int) (n : Nat) : Prop := max a b < min (a + m) (b + n)

theorem spansOverlap_iff {a b : Int} {m n : Nat} :
    SpansOverlap a m b n ↔ m > 0 ∧ n > 0 ∧ b < a + m ∧ b + n > a := by
  unfold SpansOverlap
  omega

/-- Overlapping spans share the larger of their lower bounds. -/
theorem spansOverlap_iff_exists {a b : Int} {m n : Nat} :
    SpansOverlap a m b n ↔ ∃ p : Int, (a ≤ p ∧ p < a + m) ∧ b ≤ p ∧ p < b + n := by
  constructor
  · intro h
    obtain ⟨hm, hn, hba, hab⟩ := spansOverlap_iff.1 h
    exact ⟨max a b, by omega⟩
  · rintro ⟨p, ⟨hap, hpa⟩, hbp, hpb⟩
    exact (max_le hap hbp).trans_lt (lt_min hpa hpb)

theorem spansOverlap_comm {a b : Int} {m n : Nat} : SpansOverlap a m b n ↔ SpansOverlap b n a m := by
  rw [SpansOverlap, SpansOverlap, max_comm, min_comm]

theorem spansOverlap_add {a b : Int} {m n : Nat} (d : Int) :
    SpansOverlap (a + d) m (b + d) n ↔ SpansOverlap a m b n := by
  simp only [spansOverlap_iff]
  omega

/-- Two rectangles collide exactly if their spans overlap on both axes (R160). -/
theorem collide_iff_spansOverlap {r1 r2 : Rect} :
    collide r1 r2 = true ↔ SpansOverlap r1.x r1.w r2.x r2.w ∧ SpansOverlap r1.y r1.h r2.y r2.h := by
  rw [collide_iff, spansOverlap_iff, spansOverlap_iff]
  tauto

/-- Two rectangles collide exactly if they share a pixel: its column is shared on one axis, its row on the other
(R160). -/
theorem collide_iff_exists_pixel {r1 r2 : Rect} :
    collide r1 r2 = true
      ↔ ∃ px py : Int, (r1.x ≤ px ∧ px < r1.x + r1.w ∧ r1.y ≤ py ∧ py < r1.y + r1.h)
          ∧ r2.x ≤ px ∧ px < r2.x + r2.w ∧ r2.y ≤ py ∧ py < r2.y + r2.h := by
  rw [collide_iff_spansOverlap, spansOverlap_iff_exists, spansOverlap_iff_exists]
  constructor
  · rintro ⟨⟨px, ⟨h1, h2⟩, h3, h4⟩, py, ⟨h5, h6⟩, h7, h8⟩
    exact ⟨px, py, ⟨h1, h2, h5, h6⟩, h3, h4, h7, h8⟩
  · rintro ⟨px, py, ⟨h1, h2, h5, h6⟩, h3, h4, h7, h8⟩
    exact ⟨⟨px, ⟨h1, h2⟩, h3, h4⟩, py, ⟨h5, h6⟩, h7, h8⟩

/-! ### The corner cases that hold of all rectangles (R162) -/

/-- A rectangle without a pixel collides with nothing (R162 (e)). -/
theorem collide_eq_false_of_zero_size {r1 r2 : Rect} (h : r1.w = 0 ∨ r1.h = 0 ∨ r2.w = 0 ∨ r2.h = 0) :
    collide r1 r2 = false := by
  refine Bool.eq_false_iff.2 fun hc => ?_
  obtain ⟨hw1, hh1, hw2, hh2, -⟩ := collide_iff.1 hc
  omega

theorem collide_comm (r1 r2 : Rect) : collide r1 r2 = collide r2 r1 := by
  rw [Bool.eq_iff_iff, collide_iff_spansOverlap, collide_iff_spansOverlap]
  exact and_congr spansOverlap_comm spansOverlap_comm

/-- A rectangle with a pixel shares its first one with itself (R162 (g)). -/
theorem collide_self {r : Rect} (hw : r.w ≠ 0) (hh : r.h ≠ 0) : collide r r = true :=
  collide_iff_exists_pixel.2 ⟨r.x, r.y, by omega⟩

/-- Only the distance of the rectangles matters: where the buffer lies does not (R162 (i)). -/
theorem collide_translate (r1 r2 : Rect) (dx dy : Int) :
    collide { r1 with x := r1.x + dx, y := r1.y + dy } { r2 with x := r2.x + dx, y := r2.y + dy } = collide r1 r2 := by
  rw [Bool.eq_iff_iff, collide_iff_spansOverlap, collide_iff_spansOverlap]
  exact and_congr (spansOverlap_add dx) (spansOverlap_add dy)

/-! ### The command -/

theorem exec_collide (s : State) : exec .collide s = .next (s.setHit (collide (rect1 s.regs) (rect2 s.regs))) := rfl

/-- The first rectangle has signed positions and unsigned sizes (R86). -/
theorem rect1_eq (g : OperandRegs) : rect1 g = ⟨g.r1x.toInt, g.r1y.toInt, g.r1w.toNat, g.r1h.toNat⟩ := by
  rw [rect1, sext16_eq_toInt, sext16_eq_toInt]

/-- The second rectangle has signed positions and unsigned sizes (R86). -/
theorem rect2_eq (g : OperandRegs) : rect2 g = ⟨g.r2x.toInt, g.r2y.toInt, g.r2w.toNat, g.r2h.toNat⟩ := by
  rw [rect2, sext16_eq_toInt, sext16_eq_toInt]

end Sys2Proof.Machine

open Sys2Proof Sys2Proof.Machine

/-- Settles O46: the comparison runs on the rectangles that the registers hold. -/
theorem collideResult : Obligations.CollideResult := by
  refine ⟨decode_encode .collide, fun s => ?_⟩
  rw [exec_collide, rect1_eq, rect2_eq]
  rfl

/-- Settles O47: each form says that the spans overlap on both axes. -/
theorem collideMeansASharedPixel : Obligations.CollideMeansASharedPixel :=
  fun _ _ => ⟨collide_iff, collide_iff_exists_pixel, collide_iff_spansOverlap⟩

/-- Settles O48: the rule's examples are evaluated, its general cases are lemmas on all rectangles. -/
theorem collideCornerCases : Obligations.CollideCornerCases :=
  ⟨by decide, by decide, by decide, by decide, by decide, fun _ _ => collide_eq_false_of_zero_size, collide_comm,
    fun _ => collide_self, by decide, by decide, collide_translate, by decide⟩

/-- Settles O49: the word decodes to COLLIDE, whose step leaves the read of STATUS as the next one. -/
theorem statusReadAfterCollide : Obligations.StatusReadAfterCollide := by
  intro s d rest hd hp
  have hstep := step_of_command_write hp rfl (decode_eq_ok_iff_code.2 hd : decode d = .ok .collide)
  rw [run_succ hstep, run_one]
  exact step_of_register_read (reg := .status) rfl rfl

end

section
/-! When a step completes (60_exceptions.md): the host's next transaction has a defined result (R171). A command does as
R139 says, a register transaction as R42 and R88 say, and a scan-out read always. -/

namespace Sys2Proof.Machine

/-- The defined register addresses are 0x00 to 0x0F (R25, R42). -/
theorem exists_decodeRegister_eq_some {a : RegAddr} : (∃ reg, decodeRegister a = some reg) ↔ a.toNat < 0x10 := by
  rw [← Option.ne_none_iff_exists', Ne, decodeRegister_eq_none, Nat.not_le]

/-- A command completes exactly if it is no DRAW or its DRAW meets R139. -/
theorem exec_completes_iff {i : Instr} {s : State} : (∃ t, exec i s = .next t) ↔ commandDefined i s := by
  constructor
  · exact fun h mode hm => (drawDefinedExactly i mode s hm).1 h
  · intro h
    rcases hm : i.drawMode with _ | mode
    · exact exec_of_no_drawMode hm s
    · exact (drawDefinedExactly i mode s hm).2 (h mode hm)

/-- Whether a command is defined does not depend on the transactions that follow it. -/
theorem commandDefined_setPending {i : Instr} {s : State} {ts : List Transaction} :
    commandDefined i (s.setPending ts) ↔ commandDefined i s := Iff.rfl

section
variable {s : State} {rest : List Transaction}

/-- A register write completes exactly at a defined address, CMD's only with a code of R83 whose command is defined
(R40, R42, R88). -/
theorem step_of_register_write_completes_iff {a : RegAddr} {d : Data} (hp : s.pending = .regWrite a d :: rest) :
    (∃ t, step s = .next t) ↔ transactionDefined (.regWrite a d) s := by
  constructor
  · rintro ⟨t, h⟩
    rw [step_of_pending hp] at h
    obtain ⟨ha, i, hd, he⟩ | ⟨ha, -⟩ | ⟨r, ha, -⟩ := regWrite_next_cases h
    · exact ⟨exists_decodeRegister_eq_some.1 ⟨_, ha⟩,
        fun _ => ⟨i, hd, commandDefined_setPending.1 (exec_completes_iff.1 ⟨t, he⟩)⟩⟩
    · exact ⟨exists_decodeRegister_eq_some.1 ⟨_, ha⟩, by rintro rfl; cases ha⟩
    · exact ⟨exists_decodeRegister_eq_some.1 ⟨_, ha⟩, by rintro rfl; cases ha⟩
  · rintro ⟨hlt, hcommand⟩
    obtain ⟨reg, ha⟩ := exists_decodeRegister_eq_some.2 hlt
    cases reg with
    | cmd =>
      obtain ⟨i, hd, hi⟩ := hcommand (decodeRegister_eq_some.1 ha)
      rw [step_of_command_write hp ha hd]
      exact exec_completes_iff.2 (commandDefined_setPending.2 hi)
    | status => exact ⟨_, step_of_status_write hp ha⟩
    | operand r => exact ⟨_, step_of_operand_write hp ha⟩

/-- A register read completes exactly at a defined address (R41, R42). -/
theorem step_of_register_read_completes_iff {a : RegAddr} (hp : s.pending = .regRead a :: rest) :
    (∃ t, step s = .next t) ↔ transactionDefined (.regRead a) s := by
  refine Iff.trans ?_ exists_decodeRegister_eq_some
  constructor
  · rintro ⟨t, h⟩
    rw [step_of_pending hp] at h
    obtain ⟨reg, ha, -⟩ := regRead_next_cases h
    exact ⟨reg, ha⟩
  · rintro ⟨reg, ha⟩
    exact ⟨_, step_of_register_read hp ha⟩

/-- A step with a transaction pending completes exactly if that transaction is defined (R171). -/
theorem step_completes_iff {tr : Transaction} (hp : s.pending = tr :: rest) :
    (∃ t, step s = .next t) ↔ transactionDefined tr s := by
  cases tr with
  | regWrite a d => exact step_of_register_write_completes_iff hp
  | regRead a => exact step_of_register_read_completes_iff hp
  | fbRead n => exact iff_of_true ⟨_, step_of_fbRead hp⟩ trivial

end

end Sys2Proof.Machine

open Sys2Proof Sys2Proof.Machine

/-- Settles O14: an idle step completes, and any other does exactly if its transaction is defined. -/
theorem stepCompletesExactlyWhenDefined : Obligations.StepCompletesExactlyWhenDefined := by
  refine fun s => ⟨fun hnext tr rest hp => (step_completes_iff hp).1 hnext, fun hdefined => ?_⟩
  rcases hp : s.pending with _ | ⟨tr, rest⟩
  · exact ⟨s, step_of_idle hp⟩
  · exact (step_completes_iff hp).2 (hdefined tr rest hp)

end

section
/-! The caller's preconditions (70_reset_and_hazards.md R196): arrays inside bitmap memory (R114) and frame indices below
the frame counts leave nothing for which R139 refuses a DRAW. -/

namespace Sys2Proof.Machine

/-! ### A frame of an array that lies in memory (R114) -/

section
variable {p : Platform} {addr n w h f : Nat}

/-- Each frame of an image-only bitmap that lies in memory does so itself. -/
theorem imageBitmapAt.frameInMemory (hb : imageBitmapAt p addr n w h) (hf : f < n) :
    frameInMemory p (imageBase addr f w h) (frameByteSize w h) = true := by
  obtain ⟨-, -, hextent⟩ := hb
  refine frameInMemory_iff.2 fun k hk => ?_
  obtain ⟨-, hlt, -, -⟩ := (framesLieInsideTheExtent addr f n w h k hf).1 hk
  exact hlt.trans_le hextent

/-- Each frame of a Combined Bitmap that lies in memory does so itself. -/
theorem combinedBitmapAt.frameInMemory (hb : combinedBitmapAt p addr n w h) (hf : f < n) :
    frameInMemory p (combinedBase addr f w h) (frameByteSizeCombined w h) = true := by
  obtain ⟨-, -, hextent⟩ := hb
  refine frameInMemory_iff.2 fun k hk => ?_
  obtain ⟨-, hlt⟩ := (framesLieInsideTheExtent addr f n w h k hf).2 hk
  exact hlt.trans_le hextent

/-- Each frame of a mask array that lies in memory does so itself. -/
theorem maskArrayAt.frameInMemory (hmask : maskArrayAt p addr n w h) (hf : f < n) :
    frameInMemory p (maskBase addr f w h) (frameByteSize w h) = true := by
  refine frameInMemory_iff.2 fun k hk => ?_
  obtain ⟨-, -, -, hlt⟩ := (framesLieInsideTheExtent addr f n w h k hf).1 hk
  exact hlt.trans_le hmask

end

/-! ### What the preconditions give a DRAW -/

section
variable {mode : DrawMode} {s : State} {n m w h : Nat}

/-- In every mode the bitmap at BMP has the caller's dimensions, with a legal height. -/
theorem header_of_callerPreconditions (hc : callerPreconditions mode s n m w h) :
    header s.platform s.regs.bmp.toNat = some (w, h) ∧ h % 8 = 0 := by
  cases mode with
  | extMask | plusMask | overwrite | erase | selfMask =>
    obtain ⟨⟨hheader, h8, -⟩, -⟩ := hc
    exact ⟨hheader, h8⟩

/-- In every mode the frames that FRM and MFRM select lie in memory. -/
theorem framesInMemory_of_callerPreconditions (hc : callerPreconditions mode s n m w h) :
    framesInMemory mode s.platform (drawOperands s.regs) w h = true := by
  cases mode with
  | extMask =>
    obtain ⟨himage, hfrm, hmask, hmfrm⟩ := hc
    exact Bool.and_eq_true_iff.2 ⟨himage.frameInMemory hfrm, hmask.frameInMemory hmfrm⟩
  | plusMask =>
    obtain ⟨hcombined, hfrm⟩ := hc
    exact hcombined.frameInMemory hfrm
  | overwrite | erase | selfMask =>
    obtain ⟨himage, hfrm⟩ := hc
    exact himage.frameInMemory hfrm

end

end Sys2Proof.Machine

open Sys2Proof Sys2Proof.Machine

/-- Settles O45: the preconditions are enough for each of the checks that a DRAW makes. -/
theorem drawUnderPreconditionsCompletes : Obligations.DrawUnderPreconditionsCompletes := by
  intro i mode s n m w h hm hc
  obtain ⟨hheader, h8⟩ := header_of_callerPreconditions hc
  exact ⟨_, (exec_draw_eq_next hm).2 ⟨w, h, hheader, h8, framesInMemory_of_callerPreconditions hc, rfl⟩⟩

end
